-- ==== Sys2Proof/Word.lean ====
section
/-! DEFINITION. The fixed word widths of the TC: R70 (request word), R72 (data byte), R10 (nibble). -/

namespace Sys2Proof

/-- An 8-bit data byte (R28, R72). -/
abbrev Byte := BitVec 8

/-- A 4-bit nibble, the data of one bus transfer (R10, R54). -/
abbrev Nibble := BitVec 4

/-- The 10-bit request word `{op, data}` (R70). -/
abbrev ReqWord := BitVec 10

end Sys2Proof
end

