-- ==== Sys2Proof/Config.lean ====
section
/-! DEFINITION. The elaboration-time parameter record of the TC (00_scope.md R6, 10_state.md R33, IMP8).
Its default values, its legality and its timing contract stand in Machine/Params.lean.
The spec leaves no value undefined inside the TC (R118: no draw), so there is no opaque free value here. -/

namespace Sys2Proof

/-- The parameters of R6. Every `n…` field is a count of cycles of `clk`. -/
structure Config where
  /-- `CLK_HZ`: frequency of `clk`, used only to derive defaults and by the timing contract (R6, R8). -/
  clkHz : Nat
  /-- `N_POWERUP`: power-up settle before any transmission (R161). -/
  nPowerup : Nat
  /-- `N_RST1`: delay after soft-reset nibble 1 (R162). -/
  nRst1 : Nat
  /-- `N_RST2`: delay after soft-reset nibble 2 (R162). -/
  nRst2 : Nat
  /-- `N_RST3`: delay after soft-reset nibble 3 (R162). -/
  nRst3 : Nat
  /-- `N_BUS4`: settle after the switch-to-4-bit nibble (R163). -/
  nBus4 : Nat
  /-- `N_SU`: data and RS setup before the enable rises (R130). -/
  nSu : Nat
  /-- `N_EH`: enable-high hold (R130). -/
  nEh : Nat
  /-- `N_EL`: enable-low hold after the falling edge (R130). -/
  nEl : Nat
  /-- `N_CMD`: settle after a COMMAND byte (R150). -/
  nCmd : Nat
  /-- `N_DATA`: settle after a DATA byte (R150, R181). -/
  nData : Nat
  /-- `N_CLEAR`: extra settle after clear (R182). -/
  nClear : Nat
  /-- `N_HOME`: extra settle after return-home (R183). -/
  nHome : Nat
  /-- `CNT_W`: width in bits of the delay counter (R27). -/
  cntW : Nat
  deriving DecidableEq, Repr

end Sys2Proof
end

