-- ==== Sys2Proof/Syntax.lean ====
section
/-! DEFINITION. The syntax of the TC: its instructions (requests, R70, R71), the micro-ops its programs are lists of (R75),
the names of the programs (R24), and the host-side assembler lines (R80, R81). -/

namespace Sys2Proof

/-- A request, one constructor per row of the opcode table (R71). CLEAR and HOME keep the data byte of their word:
the accept edge loads it into `dreg` although their programs ignore it (R72, R186). -/
inductive Instr where
  /-- `CMD b`, op 00 (R180). -/
  | cmd (b : Byte)
  /-- `CHAR b`, op 01 (R181). -/
  | char (b : Byte)
  /-- `CLEAR`, op 10, with its ignored data byte (R182). -/
  | clear (x : Byte)
  /-- `HOME`, op 11, with its ignored data byte (R183). -/
  | home (x : Byte)
  deriving DecidableEq, Repr

/-- The data field of a request (R72). -/
def Instr.data : Instr → Byte
  | .cmd b => b
  | .char b => b
  | .clear x => x
  | .home x => x

/-- The value of the `seq` register: which micro-program runs or last ran (R24). -/
inductive Seq where
  | init | cmd | char | clear | home
  deriving DecidableEq, Repr

/-- The delay names `k` of `WAIT(k)` (R75). -/
inductive Delay where
  | powerup | rst1 | rst2 | rst3 | bus4 | cmd | data | clear | home
  deriving DecidableEq, Repr

/-- The nibble operand `n` of `NIB(r, n)`: a constant, `HI(dreg)` or `LO(dreg)` (R75). -/
inductive NibSrc where
  | const (n : Nibble)
  | hi
  | lo
  deriving DecidableEq, Repr

/-- The two micro-op forms (R75). The register-select level `r` is false for COMMAND and true for DATA (R7, R79). -/
inductive MicroOp where
  /-- Transmit nibble `n` with RS = `r` and one enable pulse (R130). -/
  | nib (r : Bool) (n : NibSrc)
  /-- Hold all outputs for `N_k` cycles (R135). -/
  | wait (k : Delay)
  deriving DecidableEq, Repr

/-- One row of the opcode table over the 10-bit request word. -/
structure OpcodeRow where
  mnemonic : String
  pattern : ReqWord
  mask : ReqWord
  deriving DecidableEq, Repr

/-- A line of the assembler syntax (R80) with the pseudo-instructions of R81. -/
inductive AsmLine where
  | cmd (b : Byte)
  | char (b : Byte)
  | clear
  | home
  /-- `PRINT "text"`: host software, a sequence of raw byte values (R81). -/
  | print (text : List Byte)
  /-- `RESET`: the host asserts `rst` for one edge or more (R81). Its text gives no time (log 14). -/
  | reset
  deriving DecidableEq, Repr

/-- When the host asserts `rst` for a RESET line: at `extra + 1` edges in a row (R81: one edge or more), the first of them after `wait`
edges at which it drives nothing, counted from the edge that completes the action before it or from the program's first edge (log 14). -/
structure ResetTiming where
  wait : Nat
  extra : Nat
  deriving DecidableEq, Repr

/-- What a host running a program does next: present a request until it is accepted, or assert `rst` as timed (R81, R82). -/
inductive HostAction where
  | request (i : Instr)
  | reset (t : ResetTiming)
  deriving DecidableEq, Repr

end Sys2Proof
end

