-- ==== Sys2Proof/WellFormed.lean ====
section
/-! DEFINITION. Well-formedness of requests. R74: no request word is reserved, illegal or a hint, and all 256 data values are
legal for every op, so every term of `Instr` is well formed (the operand's type leaves no other value). What the spec does
check of a term is the assembler's canonical form (R80) and the legality of a configuration (R8: `Config.Legal` in
Machine/Params.lean). -/

namespace Sys2Proof

/-- Every request is well formed, whatever its data byte (R74). -/
def Instr.wellFormed : Instr → Bool
  | .cmd _ => true
  | .char _ => true
  | .clear _ => true
  | .home _ => true

/-- The form the assembler writes: `data` = 0x00 for CLEAR and HOME (R80). -/
def Instr.canonical : Instr → Bool
  | .cmd _ => true
  | .char _ => true
  | .clear x => x == 0x00#8
  | .home x => x == 0x00#8

end Sys2Proof
end

