-- ==== Sys2Proof/Decode.lean ====
section
/-! DEFINITION. Decoding and encoding of the 10-bit request word (R70 to R74, R83), and its carriage as bytes (log 7).
Every 10-bit word decodes (R74), so the decoder of a word is total; only a byte string that carries no 10-bit word is
rejected, by name. -/

namespace Sys2Proof

/-- The op field, bits [9:8] (R70). -/
def opField (w : ReqWord) : BitVec 2 := w.extractLsb' 8 2

/-- The data field, bits [7:0] (R70). -/
def dataField (w : ReqWord) : Byte := w.extractLsb' 0 8

/-- The request that `req_op` and `req_data` present (R71). -/
def decodeFields (op : BitVec 2) (b : Byte) : Instr :=
  if op = 0b00#2 then .cmd b
  else if op = 0b01#2 then .char b
  else if op = 0b10#2 then .clear b
  else .home b

/-- The request a word stands for (R71, R74: total). -/
def decode (w : ReqWord) : Instr := decodeFields (opField w) (dataField w)

/-- The op of a request (R71). -/
def opOf : Instr → BitVec 2
  | .cmd _ => 0b00#2
  | .char _ => 0b01#2
  | .clear _ => 0b10#2
  | .home _ => 0b11#2

/-- The word `{op, data}` of a request (R70). -/
def encode (i : Instr) : ReqWord := opOf i ++ i.data

/-- The opcode table of the spec (opcode_table.json; 30_encoding.md R71). -/
def opcodeTable : List OpcodeRow :=
  [⟨"CMD", 0x000#10, 0x300#10⟩, ⟨"CHAR", 0x100#10, 0x300#10⟩,
   ⟨"CLEAR", 0x200#10, 0x300#10⟩, ⟨"HOME", 0x300#10, 0x300#10⟩]

/-- The table's name of a request (R71). -/
def mnemonicOf : Instr → String
  | .cmd _ => "CMD"
  | .char _ => "CHAR"
  | .clear _ => "CLEAR"
  | .home _ => "HOME"

/-- Why a byte string carries no request word. -/
inductive DecodeError where
  /-- Fewer than two bytes. -/
  | truncated
  /-- A bit above bit 9 of the two bytes is set: a request word has 10 bits (R70). -/
  | bitsAboveWord
  deriving DecidableEq, Repr

/-- Read one request word from a byte string: `data` in the first byte, `op` in bits [1:0] of the second, whose other bits
are zero. DESIGN CHOICE (log 7): the port is parallel and the spec gives the word no byte carriage. -/
def decodeBytes : List Byte → Except DecodeError (Instr × List Byte)
  | lo :: hi :: rest =>
    if hi.extractLsb' 2 6 = 0#6 then .ok (decodeFields (hi.extractLsb' 0 2) lo, rest) else .error .bitsAboveWord
  | [_] => .error .truncated
  | [] => .error .truncated

/-- The two bytes that carry a request word (log 7). -/
def encodeBytes (i : Instr) : List Byte := [i.data, (opOf i).setWidth 8]

/-- The request in the opcode table's numbering of a word's bits: bits at and above `nbits` are zero. -/
def decodeTableWord (nbits w : Nat) : Option Instr :=
  let v := w % 2 ^ nbits
  if v < 2 ^ 16 then
    match decodeBytes [BitVec.ofNat 8 v, BitVec.ofNat 8 (v / 2 ^ 8)] with
    | .ok (i, _) => some i
    | .error _ => none
  else none

end Sys2Proof
end

