-- ==== Sys2Proof/Machine/Params.lean ====
section
/-! DEFINITION. The default configuration (R6), the fixed constants (R7), the legality of a configuration and the timing
contract (R8), and the count each delay name selects (R75). -/

namespace Sys2Proof

/-- The defaults of R6, at `CLK_HZ` = 1 000 000. -/
def Config.default : Config where
  clkHz := 1000000
  nPowerup := 15000
  nRst1 := 5000
  nRst2 := 1000
  nRst3 := 1000
  nBus4 := 5000
  nSu := 1
  nEh := 20
  nEl := 20
  nCmd := 420
  nData := 460
  nClear := 2000
  nHome := 2000
  cntW := 14

/-- The twelve counts R8 speaks of. -/
def Config.counts (c : Config) : List Nat :=
  [c.nPowerup, c.nRst1, c.nRst2, c.nRst3, c.nBus4, c.nSu, c.nEh, c.nEl, c.nCmd, c.nData, c.nClear, c.nHome]

/-- A configuration is legal when every count N has `1 ≤ N ≤ 2^CNT_W − 1` (R8). -/
abbrev Config.Legal (c : Config) : Prop := ∀ n ∈ c.counts, 1 ≤ n ∧ n ≤ 2 ^ c.cntW - 1

/-- `ceil(t × CLK_HZ)` for a time `t` of whole microseconds, as every source time of R6 is. -/
def Config.ceilCycles (c : Config) (micros : Nat) : Nat := (micros * c.clkHz + 999999) / 1000000

/-- Each count that has a source time in R6, with that time in microseconds (R6; `N_SU` has none). -/
def Config.sourceTimes (c : Config) : List (Nat × Nat) :=
  [(c.nPowerup, 15000), (c.nRst1, 5000), (c.nRst2, 1000), (c.nRst3, 1000), (c.nBus4, 5000),
   (c.nEh, 20), (c.nEl, 20), (c.nCmd, 420), (c.nData, 460), (c.nClear, 2000), (c.nHome, 2000)]

/-- A legal configuration meets the controller timing contract when every count is at least `ceil(t × CLK_HZ)` for its source
time (R8, R225). The step does not check it. -/
abbrev Config.MeetsContract (c : Config) : Prop := c.Legal ∧ ∀ p ∈ c.sourceTimes, c.ceilCycles p.2 ≤ p.1

/-- The count `N_k` that `WAIT(k)` selects (R75, R135). -/
def Config.count (c : Config) : Delay → Nat
  | .powerup => c.nPowerup
  | .rst1 => c.nRst1
  | .rst2 => c.nRst2
  | .rst3 => c.nRst3
  | .bus4 => c.nBus4
  | .cmd => c.nCmd
  | .data => c.nData
  | .clear => c.nClear
  | .home => c.nHome

/-- `D_NIB = N_SU + N_EH + N_EL` (R111). -/
def Config.dNib (c : Config) : Nat := c.nSu + c.nEh + c.nEl

/-- `CLEAR_BYTE` (R7). -/
def clearByte : Byte := 0x01#8

/-- `HOME_BYTE` (R7). -/
def homeByte : Byte := 0x02#8

/-- `RESET_NIBBLE` (R7; from general knowledge in the spec itself, log 12). -/
def resetNibble : Nibble := 0x3#4

/-- `BUS4_NIBBLE` (R7; from general knowledge in the spec itself, log 12). -/
def bus4Nibble : Nibble := 0x2#4

/-- `FUNCTION_SET` (R7; from general knowledge in the spec itself, log 12). -/
def functionSet : Byte := 0x28#8

/-- `DISPLAY_CTRL` (R7; from general knowledge in the spec itself, log 12). -/
def displayCtrl : Byte := 0x0C#8

/-- `RS_COMMAND` = 0 (R7, R79; log 12). -/
def rsCommand : Bool := false

/-- `RS_DATA` = 1 (R7, R79; log 12). -/
def rsData : Bool := true

end Sys2Proof
end

