-- ==== Sys2Proof/Machine/State.lean ====
section
/-! DEFINITION. The state of the TC (10_state.md), its reset value (R35), and the reasons a step can stop. -/

namespace Sys2Proof.Machine

/-- Whether a micro-program is running (R23). -/
inductive Phase where
  | idle | run
  deriving DecidableEq, Repr

/-- The sub-phase of the current micro-op: setup, enable high, enable low, wait (R26). -/
inductive SubPhase where
  | su | eh | el | wt
  deriving DecidableEq, Repr

/-- The values of the input ports at one rising edge of `clk` (R20). -/
structure HostInput where
  rst : Bool
  reqValid : Bool
  reqOp : BitVec 2
  reqData : Byte
  deriving DecidableEq, Repr

/-- The state: the registers of R22, exactly those, and beside them two fields of the model's own, the elaboration-time record
(log 1) and the input values of the coming edges (log 3). -/
structure State where
  /-- The parameters the TC is elaborated with (R6, R33). No step changes it. Not a register. -/
  cfg : Config
  /-- R23. -/
  phase : Phase
  /-- R24. -/
  seq : Seq
  /-- The micro-program counter (R25). -/
  upc : BitVec 5
  /-- R26. -/
  sub : SubPhase
  /-- The delay counter (R27), an unsigned number; `CNT_W` is a parameter, so it is a Nat (log 4). -/
  cnt : Nat
  /-- R28. -/
  dreg : Byte
  /-- R29. -/
  initDoneQ : Bool
  /-- Level of `lcd_en` (R30). -/
  enQ : Bool
  /-- Level of `lcd_rs` (R30). -/
  rsQ : Bool
  /-- Levels of `lcd_d[3:0]` (R30). -/
  dQ : Nibble
  /-- Input samples of the coming edges, the next edge first; after the last one the host is quiet (log 3). Not a register. -/
  inputs : List HostInput
  deriving DecidableEq, Repr

/-- The TC raises no exception and has no fault state (R200): no reason exists (log 11). -/
inductive Fault where
  deriving DecidableEq, Repr

/-- Why a step gives no next state. -/
inductive Refusal where
  /-- Raised by `exec` for an instruction that has no meaning yet; no arm does. Safe. -/
  | notModelled (mnemonic : String)
  /-- Raised by `step` and every meaning where the configuration is not legal: the spec refuses it and gives it no run (R8,
  R200, IMP7). Safe. -/
  | illegalConfiguration
  deriving DecidableEq, Repr

/-- The reset state of R35 of a TC elaborated with configuration `c`. -/
def State.resetOf (c : Config) : State where
  cfg := c
  phase := .run
  seq := .init
  upc := 0#5
  sub := .wt
  cnt := c.nPowerup
  dreg := 0x00#8
  initDoneQ := false
  enQ := false
  rsQ := false
  dQ := 0x0#4
  inputs := []

/-- The machine right after reset (R35), at the default configuration of R6 (log 2). -/
def State.reset : State := State.resetOf Config.default

end Sys2Proof.Machine
end

