-- ==== Sys2Proof/Machine/Flags.lean ====
section
/-! DEFINITION. The outputs of the TC, functions of the registers alone: the two status flags and the six bus lines (R21, R31,
R32). There are no condition codes (R32). -/

namespace Sys2Proof.Machine

/-- `ready = (phase == IDLE)` (R31, R32). -/
def ready (s : State) : Bool := s.phase == .idle

/-- `init_done` (R29, R31). -/
def initDone (s : State) : Bool := s.initDoneQ

/-- `lcd_en` (R31). -/
def lcdEn (s : State) : Bool := s.enQ

/-- `lcd_rs` (R31). -/
def lcdRs (s : State) : Bool := s.rsQ

/-- `lcd_d[3:0]` (R31). -/
def lcdD (s : State) : Nibble := s.dQ

/-- The level on controller data line D7, D6, D5 or D4, given by its number: `lcd_d[3]` drives D7 down to `lcd_d[0]` driving D4
(R21, R54). A number outside 4 to 7 names no line of the bus. -/
def dataLine (s : State) (line : Nat) : Option Bool :=
  if 4 ≤ line ∧ line ≤ 7 then some ((lcdD s).getLsbD (line - 4)) else none

end Sys2Proof.Machine
end

