-- ==== Sys2Proof/Machine/Operands.lean ====
section
/-! DEFINITION. The only operand assembly of the TC: the nibble split of a byte and the nibble operand of a NIB (R10, R73, R130,
R137). -/

namespace Sys2Proof.Machine

/-- `HI(b) = b[7:4]` (R137). -/
def hi (b : Byte) : Nibble := b.extractLsb' 4 4

/-- `LO(b) = b[3:0]` (R137). -/
def lo (b : Byte) : Nibble := b.extractLsb' 0 4

/-- The nibble `nv` that a NIB drives, with `b` the value of `dreg` being loaded or held at its Start edge (R130). -/
def nibValue (n : NibSrc) (b : Byte) : Nibble :=
  match n with
  | .const c => c
  | .hi => hi b
  | .lo => lo b

end Sys2Proof.Machine
end

