-- ==== Sys2Proof/Machine/Programs.lean ====
section
/-! DEFINITION. The micro-programs: the send_byte macro (R150), the INIT listing (R160), the four request programs (R180 to R183),
their entries and lengths (R76), the choice of program by the op field (R113), and their durations (R111, R112). -/

namespace Sys2Proof.Machine

/-- The settle of a byte sent in mode `m`: `WAIT(DATA)` for DATA, `WAIT(CMD)` for COMMAND (R150, R152). -/
def settleWait (m : Bool) : MicroOp := .wait (if m = rsData then .data else .cmd)

/-- `send_byte(dreg, m)` (R150). -/
def sendDreg (m : Bool) : List MicroOp := [.nib m .hi, .nib m .lo, settleWait m]

/-- `send_byte(b, m)` for a constant byte `b` (R150). -/
def sendConst (b : Byte) (m : Bool) : List MicroOp :=
  [.nib m (.const (hi b)), .nib m (.const (lo b)), settleWait m]

/-- The CMD program (R180). -/
def programCmd : List MicroOp := sendDreg rsCommand

/-- The CHAR program: the second `WAIT(DATA)` is deliberate (R181). -/
def programChar : List MicroOp := sendDreg rsData ++ [.wait .data]

/-- The CLEAR program (R182). -/
def programClear : List MicroOp := sendConst clearByte rsCommand ++ [.wait .clear]

/-- The HOME program (R183). -/
def programHome : List MicroOp := sendConst homeByte rsCommand ++ [.wait .home]

/-- Entries 0 to 8 of INIT: power-up settle, three soft resets, the switch to the 4-bit bus (R160 to R163). -/
def programInitHead : List MicroOp :=
  [.wait .powerup,
   .nib rsCommand (.const resetNibble), .wait .rst1,
   .nib rsCommand (.const resetNibble), .wait .rst2,
   .nib rsCommand (.const resetNibble), .wait .rst3,
   .nib rsCommand (.const bus4Nibble), .wait .bus4]

/-- The INIT program (R160): entries 9 to 22 are two `send_byte` sequences, the CLEAR program and the HOME program (R164, R165). -/
def programInit : List MicroOp :=
  programInitHead ++ sendConst functionSet rsCommand ++ sendConst displayCtrl rsCommand ++ programClear ++ programHome

/-- The listing of each program (R76). -/
def program : Seq → List MicroOp
  | .init => programInit
  | .cmd => programCmd
  | .char => programChar
  | .clear => programClear
  | .home => programHome

/-- `len(seq)` (R76). -/
def len (q : Seq) : Nat := (program q).length

/-- `uop(seq, i)`: entry `i`, none where `i` is not below `len(seq)` (R76). -/
def uop (q : Seq) (i : Nat) : Option MicroOp := (program q)[i]?

/-- `opseq(req_op)` (R113). -/
def opseq (op : BitVec 2) : Seq :=
  if op = 0b00#2 then .cmd else if op = 0b01#2 then .char else if op = 0b10#2 then .clear else .home

/-- The program of a request (R71). -/
def seqOf : Instr → Seq
  | .cmd _ => .cmd
  | .char _ => .char
  | .clear _ => .clear
  | .home _ => .home

/-- The duration of a micro-op in cycles (R111). -/
def duration (c : Config) : MicroOp → Nat
  | .nib _ _ => c.dNib
  | .wait k => c.count k

/-- `L(P)`, the sum of the durations of a program's micro-ops (R112). -/
def latency (c : Config) (q : Seq) : Nat := ((program q).map (duration c)).sum

end Sys2Proof.Machine
end

