-- ==== Sys2Proof/Machine/Ops.lean ====
section
/-! DEFINITION. The named operations of one clock edge: reading the input ports, Start of a micro-op (R130, R135), and the arms
RESET, ACCEPT, HOLD, COUNT, RISE, FALL, NEXT, FINISH of the step (R100 to R108). The TC has no exceptions, so there is no
exception entry or return (R200, R207); reset is the one event that abandons a program. -/

namespace Sys2Proof.Machine

/-- A host that neither resets nor requests. DESIGN CHOICE (log 3): it drives the ports after the last listed sample. -/
def HostInput.quiet : HostInput := ⟨false, false, 0b00#2, 0x00#8⟩

/-- The port values of a host that presents request `i` (R70). -/
def HostInput.present (i : Instr) : HostInput := ⟨false, true, opOf i, i.data⟩

/-- The port values of a host that asserts `rst` (R101). -/
def HostInput.reset : HostInput := ⟨true, false, 0b00#2, 0x00#8⟩

/-- The port values at the `j`-th coming edge (log 3). -/
def State.inputAt (s : State) (j : Nat) : HostInput := s.inputs.getD j HostInput.quiet

/-- The port values sampled at the next edge (R12). -/
def State.sample (s : State) : HostInput := s.inputAt 0

/-- The state with the next edge's sample taken. -/
def State.popInput (s : State) : State := { s with inputs := s.inputs.tail }

/-- What the input ports ask for at an edge. -/
inductive PortAction where
  | reset
  | request (i : Instr)
  | quiet
  deriving DecidableEq, Repr

/-- `rst` has priority over a request, and the request fields are read only where `req_valid` = 1 (R100, R206). -/
def portAction (p : HostInput) : PortAction :=
  if p.rst then .reset else if p.reqValid then .request (decodeFields p.reqOp p.reqData) else .quiet

/-- One clock edge with next-state function `f`: an illegal configuration has no run (R8, IMP7). -/
def clocked (f : State → State) (s : State) : Host.Outcome State Fault Refusal :=
  if s.cfg.Legal then .next (f s) else .refused .illegalConfiguration

/-- `Start(u, dbyte)` (R130, R135). -/
def start (u : MicroOp) (dbyte : Byte) (s : State) : State :=
  match u with
  | .nib r n => { s with rsQ := r, dQ := nibValue n dbyte, enQ := false, sub := .su, cnt := s.cfg.nSu }
  | .wait k => { s with sub := .wt, cnt := s.cfg.count k }

/-- RESET arm (R101, R35). -/
def resetArm (s : State) : State :=
  { s with
    phase := .run, seq := .init, upc := 0#5, sub := .wt, cnt := s.cfg.nPowerup,
    dreg := 0x00#8, initDoneQ := false, enQ := false, rsQ := false, dQ := 0x0#4 }

/-- ACCEPT arm (R102) for the program `q` and data byte `b`. Every program has an entry 0 (`Laws.uop_zero_isSome`), so the
last line is not reached. -/
def acceptArm (q : Seq) (b : Byte) (s : State) : State :=
  let s' := { s with seq := q, dreg := b, phase := .run, upc := 0#5 }
  match uop q 0 with
  | some u => start u b s'
  | none => s'

/-- HOLD arm (R103). -/
def holdArm (s : State) : State := s

/-- COUNT arm (R104). -/
def countArm (s : State) : State := { s with cnt := s.cnt - 1 }

/-- RISE arm (R105). -/
def riseArm (s : State) : State := { s with enQ := true, sub := .eh, cnt := s.cfg.nEh }

/-- FALL arm (R106). -/
def fallArm (s : State) : State := { s with enQ := false, sub := .el, cnt := s.cfg.nEl }

/-- NEXT arm (R107), with `u` the following micro-op. -/
def nextArm (u : MicroOp) (s : State) : State := start u s.dreg { s with upc := s.upc + 1 }

/-- FINISH arm (R108). -/
def finishArm (s : State) : State :=
  { s with phase := .idle, initDoneQ := s.seq == .init || s.initDoneQ }

/-- The end of a micro-op: NEXT where `upc + 1 < len(seq)`, else FINISH (R100, R107, R108). -/
def endMicroOp (s : State) : State :=
  match uop s.seq (s.upc.toNat + 1) with
  | some u => nextArm u s
  | none => finishArm s

/-- The RUN branch of the step: COUNT, RISE, FALL, NEXT or FINISH, chosen as R100's pseudocode chooses (log 5). -/
def advance (s : State) : State :=
  if 1 < s.cnt then countArm s
  else
    match s.sub with
    | .su => riseArm s
    | .eh => fallArm s
    | .el => endMicroOp s
    | .wt => endMicroOp s

/-- An edge with `rst` = 0 and `req_valid` = 0 (R100). -/
def quietEdge (s : State) : State :=
  match s.phase with
  | .idle => holdArm s
  | .run => advance s

/-- An edge with `rst` = 0 at which a request for program `q` with data byte `b` is presented: accepted in IDLE; in RUN it waits
and the running program advances (R100, R102, R204). -/
def presentEdge (q : Seq) (b : Byte) (s : State) : State :=
  match s.phase with
  | .idle => acceptArm q b s
  | .run => advance s

/-- The state with no program running that a request can be accepted in: unchanged in IDLE; in RUN, as the running program's
FINISH leaves the sequencer (R25, R27, R37, R108), the bus lines RS and D as they stand. For `State.withFetchWord` (log 8). -/
def betweenPrograms (s : State) : State :=
  match s.phase with
  | .idle => s
  | .run =>
    { s with
      phase := .idle, upc := BitVec.ofNat 5 (len s.seq - 1), sub := .wt, cnt := 1, initDoneQ := true, enQ := false }

/-- The state whose next sampled port values are `p`, the listed ones after it. -/
def State.pushInput (p : HostInput) (s : State) : State := { s with inputs := p :: s.inputs }

/-- The port values that present the request word `w` of `nbits` bits (R70). -/
def presentWord (nbits w : Nat) : HostInput :=
  let v : ReqWord := BitVec.ofNat 10 (w % 2 ^ nbits)
  ⟨false, true, opField v, dataField v⟩

end Sys2Proof.Machine
end

