-- ==== Sys2Proof/Machine/Requests.lean ====
section
/-! DEFINITION. The meanings of the four requests (44_operations.md): one clock edge with `rst` = 0 at which the request is
presented (log 6). In IDLE the edge accepts it: it latches the data byte, selects the request's program and Starts its entry 0
(R102). The program then runs on the edges after it, by `quietEdge` and `presentEdge` (R104 to R108). -/

namespace Sys2Proof.Machine

/-- `CMD b` (R180). -/
def execCmd (b : Byte) (s : State) : Host.Outcome State Fault Refusal := clocked (presentEdge .cmd b) s

/-- `CHAR b` (R181). -/
def execChar (b : Byte) (s : State) : Host.Outcome State Fault Refusal := clocked (presentEdge .char b) s

/-- `CLEAR`, its data byte `x` loaded and ignored (R182, R186). -/
def execClear (x : Byte) (s : State) : Host.Outcome State Fault Refusal := clocked (presentEdge .clear x) s

/-- `HOME`, its data byte `x` loaded and ignored (R183, R186). -/
def execHome (x : Byte) (s : State) : Host.Outcome State Fault Refusal := clocked (presentEdge .home x) s

end Sys2Proof.Machine
end

