-- ==== Sys2Proof/Machine/Dispatch.lean ====
section
/-! DEFINITION. The dispatch of a presented request to its meaning (R71). -/

namespace Sys2Proof.Machine

def exec (i : Instr) (s : State) : Host.Outcome State Fault Refusal :=
  match i with
  | .cmd b => Sys2Proof.Machine.execCmd b s
  | .char b => Sys2Proof.Machine.execChar b s
  | .clear x => Sys2Proof.Machine.execClear x s
  | .home x => Sys2Proof.Machine.execHome x s

end Sys2Proof.Machine
end

