-- ==== Sys2Proof/Machine/Step.lean ====
section
/-! DEFINITION. The clock-edge step (R100), and the placing of a request word for the next edge (log 8). -/

namespace Sys2Proof.Machine

/-- One rising edge of `clk`: the port values of this edge are sampled, then one arm applies, in the priority order of R100. -/
def step (s : State) : Host.Outcome State Fault Refusal :=
  match portAction s.sample with
  | .reset => clocked resetArm s.popInput
  | .request i => exec i s.popInput
  | .quiet => clocked quietEdge s.popInput

/-- `s` with the request word `w` presented at the next edge and no program running, so that the next step accepts and starts
exactly that request (log 8). -/
def State.withFetchWord (s : State) (nbits w : Nat) : State :=
  (betweenPrograms s).pushInput (presentWord nbits w)

end Sys2Proof.Machine
end

