-- ==== Sys2Proof/Machine/Assembler.lean ====
section
/-! DEFINITION. The assembler text of R80 and R81 and the disassembler of R80, over lists of characters. What the spec's grammar
leaves open (spaces, the case of hexadecimal digits, which form of a byte is printed, the text of a PRINT literal) is fixed in log
13. -/

namespace Sys2Proof.Machine

/-- A printable ASCII character (R80). -/
def isPrintable (c : Char) : Bool := decide (0x20 ≤ c.toNat ∧ c.toNat ≤ 0x7E)

/-- The hexadecimal digit of a nibble, upper case. -/
def hexChar (n : Nibble) : Char :=
  if n.toNat < 10 then Char.ofNat (0x30 + n.toNat) else Char.ofNat (0x37 + n.toNat)

/-- The nibble a hexadecimal digit stands for, either case (log 13). -/
def hexValue (c : Char) : Option Nibble :=
  if 0x30 ≤ c.toNat ∧ c.toNat ≤ 0x39 then some (BitVec.ofNat 4 (c.toNat - 0x30))
  else if 0x41 ≤ c.toNat ∧ c.toNat ≤ 0x46 then some (BitVec.ofNat 4 (c.toNat - 0x37))
  else if 0x61 ≤ c.toNat ∧ c.toNat ≤ 0x66 then some (BitVec.ofNat 4 (c.toNat - 0x57))
  else none

/-- `"0x" hex hex` (R80), the form in which a byte is written. DESIGN CHOICE (log 13): R80 gives a byte two forms and leaves open which
one is printed. -/
def byteText (b : Byte) : List Char :=
  ['0', 'x', hexChar (b.extractLsb' 4 4), hexChar (b.extractLsb' 0 4)]

/-- Spaces between the parts of a line (log 13). -/
def skipSpaces : List Char → List Char
  | [] => []
  | c :: cs => if c = ' ' then skipSpaces cs else c :: cs

/-- `byte := "0x" hex hex | "'" printable-ASCII-char "'"` (R80). -/
def parseByte : List Char → Option (Byte × List Char)
  | '0' :: 'x' :: h :: l :: rest =>
    match hexValue h, hexValue l with
    | some a, some b => some (a ++ b, rest)
    | _, _ => none
  | '\'' :: c :: '\'' :: rest => if isPrintable c then some (BitVec.ofNat 8 c.toNat, rest) else none
  | _ => none

/-- The characters of a PRINT literal up to its closing quote, each as its ASCII byte (R81, log 13). -/
def parseText : List Char → Option (List Byte × List Char)
  | [] => none
  | c :: cs =>
    if c = '"' then some ([], cs)
    else if isPrintable c then
      match parseText cs with
      | some (text, rest) => some (BitVec.ofNat 8 c.toNat :: text, rest)
      | none => none
    else none

/-- `request` of R80 with the pseudo-instructions of R81, and what follows it in the line. -/
def parseRequest : List Char → Option (AsmLine × List Char)
  | 'C' :: 'M' :: 'D' :: ' ' :: rest => (parseByte (skipSpaces rest)).map (fun p => (.cmd p.1, p.2))
  | 'C' :: 'H' :: 'A' :: 'R' :: ' ' :: rest => (parseByte (skipSpaces rest)).map (fun p => (.char p.1, p.2))
  | 'C' :: 'L' :: 'E' :: 'A' :: 'R' :: rest => some (.clear, rest)
  | 'H' :: 'O' :: 'M' :: 'E' :: rest => some (.home, rest)
  | 'P' :: 'R' :: 'I' :: 'N' :: 'T' :: ' ' :: rest =>
    match skipSpaces rest with
    | '"' :: body => (parseText body).map (fun p => (.print p.1, p.2))
    | _ => none
  | 'R' :: 'E' :: 'S' :: 'E' :: 'T' :: rest => some (.reset, rest)
  | _ => none

/-- Nothing but spaces and a comment follows (R80). -/
def lineEnds (cs : List Char) : Bool :=
  match skipSpaces cs with
  | [] => true
  | c :: _ => c == ';'

/-- `line := [request] [";" comment]` (R80): the request, if the line has one; none where the line is not in the grammar. -/
def parseLine (cs : List Char) : Option (Option AsmLine) :=
  if lineEnds cs then some none
  else
    match parseRequest (skipSpaces cs) with
    | some (l, rest) => if lineEnds rest then some (some l) else none
    | none => none

/-- The text of a line. The byte of CMD and CHAR is written as 0xHH, never as a quoted character. DESIGN CHOICE (log 13): R80 says only
that the disassembler prints the data byte. -/
def lineText : AsmLine → List Char
  | .cmd b => ['C', 'M', 'D', ' '] ++ byteText b
  | .char b => ['C', 'H', 'A', 'R', ' '] ++ byteText b
  | .clear => ['C', 'L', 'E', 'A', 'R']
  | .home => ['H', 'O', 'M', 'E']
  | .print text => ['P', 'R', 'I', 'N', 'T', ' ', '"'] ++ text.map (fun b => Char.ofNat b.toNat) ++ ['"']
  | .reset => ['R', 'E', 'S', 'E', 'T']

/-- A line the text form can write: a PRINT literal holds printable ASCII and no double quote (log 13). -/
def writable : AsmLine → Bool
  | .print text => text.all (fun b => isPrintable (Char.ofNat b.toNat) && b != 0x22#8)
  | .cmd _ => true
  | .char _ => true
  | .clear => true
  | .home => true
  | .reset => true

/-- The disassembler: the op field's mnemonic, and the data byte for CMD and CHAR (R80). Every word disassembles (R74). -/
def disassemble (w : ReqWord) : AsmLine :=
  match decode w with
  | .cmd b => .cmd b
  | .char b => .char b
  | .clear _ => .clear
  | .home _ => .home

end Sys2Proof.Machine
end

