-- ==== Sys2Proof/Machine/Observe.lean ====
section
/-! DEFINITION. What is observed of a run: the transfer of an edge and the transfer trace (R51, R52), the requests accepted
(R102), and the transfers the listings give (R111, R133). None of it is state of the TC: all is read off the states of a run.
The first step of a run is its reference edge E0 and the step with index k is edge Ek (R12). -/

namespace Sys2Proof.Machine

/-- `k` edges from `s`. It is `Host.Core.run` of this machine (`Laws.edges_eq_run`). -/
def edges : Nat → State → Host.Outcome State Fault Refusal
  | 0, s => .next s
  | k + 1, s =>
    match step s with
    | .next t => edges k t
    | .fault r => .fault r
    | .refused r => .refused r

/-- A transfer `(rs, n)`, with the mark of an aborted one (R51, R52). -/
structure Transfer where
  rs : Bool
  nibble : Nibble
  aborted : Bool
  deriving DecidableEq, Repr

/-- The transfer of the edge from `s` to `t`: where `en_q` is 1 before and 0 after, with the `rs_q` and `d_q` of before; aborted
where the edge is a reset edge (R51, R52). -/
def transferAt (s t : State) : Option Transfer :=
  if s.enQ && !t.enQ then some ⟨s.rsQ, s.dQ, s.sample.rst⟩ else none

/-- The transfers of `k` edges from `s`, the first of which is numbered `i`. -/
def traceFrom (i : Nat) : Nat → State → List (Nat × Transfer)
  | 0, _ => []
  | k + 1, s =>
    match step s with
    | .next t => (transferAt s t).toList.map (fun x => (i, x)) ++ traceFrom (i + 1) k t
    | .fault _ => []
    | .refused _ => []

/-- The transfer trace of `k` edges: each transfer with its edge index (R51). -/
def trace (k : Nat) (s : State) : List (Nat × Transfer) := traceFrom 0 k s

/-- The transfers of `k` edges in order, without their edge indices. -/
def transfers (k : Nat) (s : State) : List Transfer := (trace k s).map Prod.snd

/-- The request accepted at the next edge, if any (R102, R206). -/
def acceptedAt (s : State) : Option Instr :=
  match portAction s.sample with
  | .reset => none
  | .request i => if s.phase = .idle then some i else none
  | .quiet => none

/-- The requests accepted in `k` edges, in order (R102). -/
def accepted : Nat → State → List Instr
  | 0, _ => []
  | k + 1, s =>
    match step s with
    | .next t => (acceptedAt s).toList ++ accepted k t
    | .fault _ => []
    | .refused _ => []

/-- The transfers of a micro-op that is not cut short: one for a NIB (R133), none for a WAIT. -/
def uopTransfers (b : Byte) : MicroOp → List Transfer
  | .nib r n => [⟨r, nibValue n b, false⟩]
  | .wait _ => []

/-- The transfers of a list of micro-ops whose first is loaded at edge `e`: a NIB's comes at the edge that ends its cycle
`N_SU + N_EH` (R111). -/
def schedule (c : Config) (b : Byte) : Nat → List MicroOp → List (Nat × Transfer)
  | _, [] => []
  | e, u :: us =>
    (uopTransfers b u).map (fun x => (e + c.nSu + c.nEh, x)) ++ schedule c b (e + duration c u) us

/-- The transfers of a program run with data byte `b` (R133). -/
def programTransfers (q : Seq) (b : Byte) : List Transfer := (program q).flatMap (uopTransfers b)

/-- The transfers of a request (R133). -/
def requestTransfers (i : Instr) : List Transfer := programTransfers (seqOf i) i.data

end Sys2Proof.Machine
end

