-- ==== Sys2Proof/Machine/EagerHost.lean ====
section
/-! DEFINITION. The eager host of R82, on which a request program runs, and the expansion of the pseudo-instructions (R81). The
host is a closed loop around the step: what it presents at an edge is computed from the state it has reached. -/

namespace Sys2Proof.Machine

/-- What a line of a program asks of the host (R81): PRINT is CLEAR, HOME, then one CHAR for each byte; the assembler writes data
0x00 for CLEAR and HOME (R80); a RESET line takes the timing `t` (log 14). -/
def assembleLine (t : ResetTiming) : AsmLine → List HostAction
  | .cmd b => [.request (.cmd b)]
  | .char b => [.request (.char b)]
  | .clear => [.request (.clear 0x00#8)]
  | .home => [.request (.home 0x00#8)]
  | .print text => .request (.clear 0x00#8) :: .request (.home 0x00#8) :: text.map (fun b => .request (.char b))
  | .reset => [.reset t]

/-- The number of RESETs of a line. -/
def resetsIn : AsmLine → Nat
  | .cmd _ => 0
  | .char _ => 0
  | .clear => 0
  | .home => 0
  | .print _ => 0
  | .reset => 1

/-- What the lines ask of the host, the first RESET among them taking the timing number `n`. -/
def assembleFrom (times : Nat → ResetTiming) : Nat → List AsmLine → List HostAction
  | _, [] => []
  | n, l :: ls => assembleLine (times n) l ++ assembleFrom times (n + resetsIn l) ls

/-- What a program asks of the host, line by line (R80, R81), `times` giving the timing of each of its RESET lines in order (log 14). -/
def assemble (times : Nat → ResetTiming) (lines : List AsmLine) : List HostAction := assembleFrom times 0 lines

/-- The port values of the eager host whose current action is the first of the list: the request is held valid (R82); `rst` is
asserted once the RESET's wait is over, and before that the host is quiet (log 14), as it is with nothing left. -/
def eagerSample : List HostAction → HostInput
  | .request i :: _ => HostInput.present i
  | .reset ⟨0, _⟩ :: _ => HostInput.reset
  | .reset ⟨_ + 1, _⟩ :: _ => HostInput.quiet
  | [] => HostInput.quiet

/-- What is left after an edge at which the TC stands in phase `p`: a request is done at the edge that accepts it (R82, R102), a
RESET at the last edge of its timing, which every edge shortens by one (log 14). -/
def eagerRest (p : Phase) : List HostAction → List HostAction
  | .request i :: rest =>
    match p with
    | .idle => rest
    | .run => .request i :: rest
  | .reset ⟨0, 0⟩ :: rest => rest
  | .reset ⟨0, e + 1⟩ :: rest => .reset ⟨0, e⟩ :: rest
  | .reset ⟨w + 1, e⟩ :: rest => .reset ⟨w, e⟩ :: rest
  | [] => []

/-- The port values of the eager host at the first `k` edges from `s`. -/
def eagerInputs : Nat → List HostAction → State → List HostInput
  | 0, _, _ => []
  | k + 1, acts, s =>
    eagerSample acts ::
      match step { s with inputs := [eagerSample acts] } with
      | .next t => eagerInputs k (eagerRest s.phase acts) t
      | .fault _ => []
      | .refused _ => []

/-- `s` attached to the eager host with program `acts` for `k` edges (R82). -/
def eagerStart (k : Nat) (acts : List HostAction) (s : State) : State := { s with inputs := eagerInputs k acts s }

/-- The end state of a program on the eager host: the state in the first cycle with `ready` = 1 after its last action is done, if
`k` edges from `s` reach it. Where the last action is a request this is R82's end state. DESIGN CHOICE (log 21): for a program with no
request, and for one that ends in a RESET after its last request's FINISH, of which R82 does not speak, it is the same cycle. -/
def endState : Nat → List HostAction → State → Option State
  | 0, acts, s => if acts.isEmpty && ready s then some s else none
  | k + 1, acts, s =>
    if acts.isEmpty && ready s then some s
    else
      match step { s with inputs := [eagerSample acts] } with
      | .next t => endState k (eagerRest s.phase acts) t
      | .fault _ => none
      | .refused _ => none

/-- The cycles from the first accept edge of `PRINT` of a text of `n` bytes to the FINISH of its last request (R184). -/
def printCycles (c : Config) (n : Nat) : Nat :=
  latency c .clear + 1 + latency c .home + 1 + n * (latency c .char + 1) - 1

end Sys2Proof.Machine
end

