-- ==== Sys2Proof/Safety.lean ====
section
/-! DEFINITION. What the claims about runs are stated with: the invariants of R37, the resting values of an idle sequencer (R25,
R27), and the absence of a reset over a stretch of edges. -/

namespace Sys2Proof.Machine

/-- The six invariants of R37, in its order. -/
structure State.Inv (s : State) : Prop where
  /-- R37 item 1. -/
  en_iff : s.enQ = true ↔ s.phase = .run ∧ s.sub = .eh
  /-- R37 item 2. -/
  run_bounds : s.phase = .run → 1 ≤ s.cnt ∧ s.cnt ≤ 2 ^ s.cfg.cntW - 1 ∧ s.upc.toNat < len s.seq
  /-- R37 item 3. -/
  idle_done : s.phase = .idle → s.initDoneQ = true
  /-- R37 item 4. -/
  not_done : s.initDoneQ = false → s.phase = .run ∧ s.seq = .init
  /-- R37 item 5, first half. -/
  wt_wait : s.sub = .wt → ∃ k, uop s.seq s.upc.toNat = some (.wait k)
  /-- R37 item 5, second half. -/
  nib_sub : s.sub ≠ .wt → ∃ r n, uop s.seq s.upc.toNat = some (.nib r n)
  /-- R37 item 6. -/
  done_seq : s.initDoneQ = true → s.seq ≠ .init ∨ s.phase = .idle

/-- `upc < len(seq)` always, and in IDLE it holds the index of the last micro-op of the last program (R25); in IDLE `cnt` holds 1,
the value it had when the last sub-phase ended (R27), which is a WAIT (R108). -/
structure State.Rests (s : State) : Prop where
  upc_lt : s.upc.toNat < len s.seq
  idle_upc : s.phase = .idle → s.upc.toNat + 1 = len s.seq
  idle_cnt : s.phase = .idle → s.cnt = 1
  idle_sub : s.phase = .idle → s.sub = .wt

/-- No reset is sampled at the coming edges `a` to `b - 1`. -/
def State.NoReset (s : State) (a b : Nat) : Prop := ∀ j, a ≤ j → j < b → (s.inputAt j).rst = false

/-- Request `i` is presented, without reset, at the coming edge `j` (R70). -/
def State.Presents (s : State) (j : Nat) (i : Instr) : Prop := portAction (s.inputAt j) = .request i

/-- The registers of two states are equal, every one of R22, and so is the configuration (the coming inputs may differ). -/
def SameRegisters (s t : State) : Prop := { s with inputs := [] } = { t with inputs := [] }

end Sys2Proof.Machine
end

