-- ==== Sys2Proof/Certificates/Slice0/Obligations.lean ====
section
/-! DEFINITION. The statements for the provers. Edge numbering is that of R12: the first edge of a run is E0, the edge with index k
is Ek, and the state after `edges k` is the state in cycle k. `s.popInput` is `s` with the sample of the edge taken (log 3). -/

open Sys2Proof Sys2Proof.Machine

/-! ### Encoding -/

/-- R70 to R74: every request survives encoding and decoding, as a word, as bytes (log 7) and in the opcode table's numbering, with
its data byte at every value; and every 10-bit word is the encoding of the request it decodes to. -/
def Obligations.DecodeAndEncodeAgree : Prop :=
  (∀ (i : Instr) (rest : List Byte), i.wellFormed = true →
    decode (encode i) = i ∧ decodeBytes (encodeBytes i ++ rest) = .ok (i, rest) ∧
      decodeTableWord 16 (encode i).toNat = some i) ∧
  ∀ w : ReqWord, encode (decode w) = w

/-- R71, R113: for every word exactly one row of the opcode table matches, its mnemonic is the decoded request's, and the request's
program is `opseq` of the word's op field. -/
def Obligations.EveryWordMatchesExactlyOneTableRow : Prop :=
  ∀ w : ReqWord,
    (opcodeTable.filter (fun r => decide (w &&& r.mask = r.pattern))).map (fun r => r.mnemonic) = [mnemonicOf (decode w)] ∧
      seqOf (decode w) = opseq (opField w) ∧ (decode w).data = dataField w

/-- R113. -/
def Obligations.OpFieldSelectsTheProgram : Prop :=
  opseq 0b00#2 = .cmd ∧ opseq 0b01#2 = .char ∧ opseq 0b10#2 = .clear ∧ opseq 0b11#2 = .home ∧
    ∀ op : BitVec 2, opseq op = .cmd ∨ opseq op = .char ∨ opseq op = .clear ∨ opseq op = .home

/-- The model's byte carriage of the request word (log 7): what decodes is exactly an encoding followed by the rest, and the two
rejections are exactly the strings that are too short and those with a bit above bit 9 set. -/
def Obligations.ByteStringDecodesOnlyAsACarriedWord : Prop :=
  (∀ bs i rest, decodeBytes bs = .ok (i, rest) ↔ bs = encodeBytes i ++ rest) ∧
  (∀ bs, decodeBytes bs = .error .truncated ↔ bs.length < 2) ∧
  ∀ bs, decodeBytes bs = .error .bitsAboveWord ↔ ∃ lo hi rest, bs = lo :: hi :: rest ∧ hi.extractLsb' 2 6 ≠ 0#6

/-- Request words of 95_test_vectors.md 2.1 and 3, written out bit by bit from R70 and R71, decode to their requests. -/
def Obligations.SpecWordsDecodeToTheirRequests : Prop :=
  decode 0b0000101000#10 = .cmd 0x28#8 ∧ decode 0b0011111111#10 = .cmd 0xFF#8 ∧ decode 0b0000000001#10 = .cmd 0x01#8 ∧
    decode 0b0101000001#10 = .char 0x41#8 ∧ decode 0b0111111111#10 = .char 0xFF#8 ∧ decode 0b1000000000#10 = .clear 0x00#8 ∧
    decode 0b1011111111#10 = .clear 0xFF#8 ∧ decode 0b1100000000#10 = .home 0x00#8 ∧ decode 0b1110100101#10 = .home 0xA5#8

/-- R80, R81, with the text conventions of log 13 (the model's choice): a line whose PRINT literal can be written is read back from its text, and the
disassembly of a word in the assembler's canonical form assembles to that word's request. -/
def Obligations.AssemblerTextReadsBack : Prop :=
  (∀ l : AsmLine, writable l = true → parseLine (lineText l) = some (some l)) ∧
  ∀ (i : Instr) (t : ResetTiming), i.canonical = true → assembleLine t (disassemble (encode i)) = [.request i]

/-- R137 with its vectors. -/
def Obligations.NibbleSplitIsLossless : Prop :=
  (∀ b : Byte, (hi b).toNat = (b.toNat / 16) % 16 ∧ (lo b).toNat = b.toNat % 16 ∧ b = hi b ++ lo b) ∧
    (hi 0x00#8, lo 0x00#8) = (0x0#4, 0x0#4) ∧ (hi 0xFF#8, lo 0xFF#8) = (0xF#4, 0xF#4) ∧
    (hi 0x41#8, lo 0x41#8) = (0x4#4, 0x1#4) ∧ (hi 0x28#8, lo 0x28#8) = (0x2#4, 0x8#4) ∧
    (hi 0xA5#8, lo 0xA5#8) = (0xA#4, 0x5#4) ∧ (hi 0x0C#8, lo 0x0C#8) = (0x0#4, 0xC#4)

/-! ### Configuration and programs -/

/-- R6, R8, D29: the default configuration is legal and meets the timing contract, each default count with a source time is exactly
`ceil(t × CLK_HZ)`, and 14 is the least width that holds `N_POWERUP`. -/
def Obligations.DefaultConfigurationFollowsTheSourceTimes : Prop :=
  Config.default.MeetsContract ∧ (∀ p ∈ Config.default.sourceTimes, p.1 = Config.default.ceilCycles p.2) ∧
    Config.default.nPowerup < 2 ^ Config.default.cntW ∧ ¬ Config.default.nPowerup < 2 ^ (Config.default.cntW - 1)

/-- R76, R160, R180 to R183: the five listings and their lengths. -/
def Obligations.ProgramListingsAreThoseOfTheSpec : Prop :=
  program .cmd = [.nib false .hi, .nib false .lo, .wait .cmd] ∧ len .cmd = 3 ∧
  program .char = [.nib true .hi, .nib true .lo, .wait .data, .wait .data] ∧ len .char = 4 ∧
  program .clear = [.nib false (.const 0x0#4), .nib false (.const 0x1#4), .wait .cmd, .wait .clear] ∧ len .clear = 4 ∧
  program .home = [.nib false (.const 0x0#4), .nib false (.const 0x2#4), .wait .cmd, .wait .home] ∧ len .home = 4 ∧
  program .init =
    [.wait .powerup, .nib false (.const 0x3#4), .wait .rst1, .nib false (.const 0x3#4), .wait .rst2,
     .nib false (.const 0x3#4), .wait .rst3, .nib false (.const 0x2#4), .wait .bus4,
     .nib false (.const 0x2#4), .nib false (.const 0x8#4), .wait .cmd,
     .nib false (.const 0x0#4), .nib false (.const 0xC#4), .wait .cmd,
     .nib false (.const 0x0#4), .nib false (.const 0x1#4), .wait .cmd, .wait .clear,
     .nib false (.const 0x0#4), .nib false (.const 0x2#4), .wait .cmd, .wait .home] ∧ len .init = 23

/-- R167, R230: the latency formulas, and their values at the default configuration. -/
def Obligations.LatenciesFollowTheTimingTable : Prop :=
  (∀ c : Config, c.dNib = c.nSu + c.nEh + c.nEl ∧
    latency c .cmd = 2 * c.dNib + c.nCmd ∧ latency c .char = 2 * c.dNib + 2 * c.nData ∧
    latency c .clear = 2 * c.dNib + c.nCmd + c.nClear ∧ latency c .home = 2 * c.dNib + c.nCmd + c.nHome ∧
    latency c .init =
      c.nPowerup + c.nRst1 + c.nRst2 + c.nRst3 + c.nBus4 + 12 * c.dNib + 4 * c.nCmd + c.nClear + c.nHome) ∧
  Config.default.dNib = 41 ∧ latency Config.default .cmd = 502 ∧ latency Config.default .char = 1002 ∧
    latency Config.default .clear = 2502 ∧ latency Config.default .home = 2502 ∧ latency Config.default .init = 33172

/-- R8, R200: a configuration with a count of 0 or a count wider than `CNT_W` is refused, and a configuration without one gives every
state a next state, whatever the inputs. The spec refuses at elaboration; that the refusal falls at the step and at every request is
the model's choice (log 9, DEDUCED). -/
def Obligations.OnlyAnIllegalConfigurationIsRefused : Prop :=
  (∀ s : State,
    (∃ n ∈ [s.cfg.nPowerup, s.cfg.nRst1, s.cfg.nRst2, s.cfg.nRst3, s.cfg.nBus4, s.cfg.nSu, s.cfg.nEh, s.cfg.nEl, s.cfg.nCmd,
        s.cfg.nData, s.cfg.nClear, s.cfg.nHome], n = 0 ∨ 2 ^ s.cfg.cntW ≤ n) →
    step s = .refused .illegalConfiguration ∧ ∀ i, exec i s = .refused .illegalConfiguration) ∧
  ∀ (s : State) (k : Nat),
    (∀ n ∈ [s.cfg.nPowerup, s.cfg.nRst1, s.cfg.nRst2, s.cfg.nRst3, s.cfg.nBus4, s.cfg.nSu, s.cfg.nEh, s.cfg.nEl, s.cfg.nCmd,
        s.cfg.nData, s.cfg.nClear, s.cfg.nHome], 1 ≤ n ∧ n < 2 ^ s.cfg.cntW) →
    (∀ i, ∃ t, exec i s = .next t) ∧ ∃ t, edges k s = .next t ∧ t.cfg = s.cfg ∧ t.inputs = s.inputs.drop k

/-! ### Reset -/

/-- R35, at the default configuration (log 2). -/
def Obligations.ResetStateHoldsTheSpecValues : Prop :=
  State.reset.cfg = Config.default ∧ State.reset.phase = .run ∧ State.reset.seq = .init ∧ State.reset.upc = 0#5 ∧
    State.reset.sub = .wt ∧ State.reset.cnt = 15000 ∧ State.reset.dreg = 0x00#8 ∧ State.reset.initDoneQ = false ∧
    State.reset.enQ = false ∧ State.reset.rsQ = false ∧ State.reset.dQ = 0x0#4 ∧
    ready State.reset = false ∧ initDone State.reset = false ∧ lcdEn State.reset = false ∧ lcdRs State.reset = false ∧
    lcdD State.reset = 0x0#4

/-- R35: at every edge with `rst` = 1, whatever the state and the other inputs, every register takes its reset value. -/
def Obligations.ResetEdgeWritesEveryRegister : Prop :=
  ∀ s : State, s.cfg.Legal → s.sample.rst = true →
    ∃ t, step s = .next t ∧ t.phase = .run ∧ t.seq = .init ∧ t.upc = 0#5 ∧ t.sub = .wt ∧ t.cnt = s.cfg.nPowerup ∧
      t.dreg = 0x00#8 ∧ t.initDoneQ = false ∧ t.enQ = false ∧ t.rsQ = false ∧ t.dQ = 0x0#4 ∧
      ready t = false ∧ initDone t = false ∧ lcdEn t = false ∧ lcdRs t = false ∧ lcdD t = 0x0#4 ∧
      t.cfg = s.cfg ∧ t.inputs = s.inputs.tail

/-- R220: holding `rst` = 1 for `k` edges gives the state a single reset edge gives. -/
def Obligations.HeldResetGivesTheResetState : Prop :=
  ∀ (s : State) (k : Nat), s.cfg.Legal → 0 < k → (∀ j, j < k → (s.inputAt j).rst = true) →
    edges k s = .next { State.resetOf s.cfg with inputs := s.inputs.drop k }

/-- R52, R221: a reset edge makes an aborted transfer exactly where it falls in the enable-high sub-phase of a running micro-op, with
the levels of the cycle before the edge; it accepts no request (R206). -/
def Obligations.ResetAbortsOnlyAnEnableHighTransfer : Prop :=
  ∀ s t : State, s.Inv → s.sample.rst = true → step s = .next t →
    (s.phase = .run → s.sub = .eh → transferAt s t = some ⟨s.rsQ, s.dQ, true⟩) ∧
    (s.phase = .idle ∨ s.sub ≠ .eh → transferAt s t = none) ∧ acceptedAt s = none ∧
    lcdEn t = false ∧ lcdRs t = false ∧ lcdD t = 0x0#4

/-! ### The arms of the step -/

/-- What `exec` is: the edge at which a request is presented, accepted in IDLE and ignored in RUN. That the meaning of a request is this
edge is the model's choice (log 6), no rule of the spec: where a request word is presented without reset, the step is `exec` of the
decoded request on the state whose input sample is taken. -/
def Obligations.StepRunsThePresentedRequest : Prop :=
  ∀ (s : State) (i : Instr), s.sample.rst = false → s.sample.reqValid = true →
    decode (s.sample.reqOp ++ s.sample.reqData) = i → step s = exec i s.popInput

/-- The word placed for the host (log 8) is what the next step runs, with no program running, and the placing keeps the
invariants. -/
def Obligations.PlacedWordIsTheNextRequestRun : Prop :=
  ∀ (s : State) (nbits w : Nat) (i : Instr), decodeTableWord nbits w = some i →
    step (s.withFetchWord nbits w) = exec i (betweenPrograms s) ∧ (betweenPrograms s).phase = .idle ∧
      (s.phase = .idle → betweenPrograms s = s) ∧ (s.Inv → (s.withFetchWord nbits w).Inv)

/-- R103: in IDLE without reset or request no register changes, for any number of edges; `ready` stays 1 and `lcd_en` is 0. -/
def Obligations.IdleHoldsForAnyNumberOfEdges : Prop :=
  ∀ (s : State) (k : Nat), s.cfg.Legal → s.Inv → s.phase = .idle →
    (∀ j, j < k → (s.inputAt j).rst = false ∧ (s.inputAt j).reqValid = false) →
    edges k s = .next { s with inputs := s.inputs.drop k } ∧ trace k s = [] ∧ ready s = true ∧ lcdEn s = false

/-- R104. -/
def Obligations.CountArmOnlyCountsDown : Prop :=
  ∀ s : State, s.cfg.Legal → s.sample.rst = false → s.phase = .run → 1 < s.cnt →
    step s = .next { s with cnt := s.cnt - 1, inputs := s.inputs.tail }

/-- R105. -/
def Obligations.RiseArmRaisesEnable : Prop :=
  ∀ s : State, s.cfg.Legal → s.sample.rst = false → s.phase = .run → s.cnt = 1 → s.sub = .su →
    step s = .next { s with enQ := true, sub := .eh, cnt := s.cfg.nEh, inputs := s.inputs.tail }

/-- R106, R51: the FALL edge, and the transfer it is. -/
def Obligations.FallArmIsTheTransfer : Prop :=
  ∀ s : State, s.cfg.Legal → s.Inv → s.sample.rst = false → s.phase = .run → s.cnt = 1 → s.sub = .eh →
    ∃ t, step s = .next t ∧ t = { s with enQ := false, sub := .el, cnt := s.cfg.nEl, inputs := s.inputs.tail } ∧
      transferAt s t = some ⟨s.rsQ, s.dQ, false⟩

/-- R107, with the Start of a NIB (R130) and of a WAIT (R135). -/
def Obligations.NextArmStartsTheFollowingMicroOp : Prop :=
  ∀ s : State, s.cfg.Legal → s.sample.rst = false → s.phase = .run → s.cnt = 1 → (s.sub = .el ∨ s.sub = .wt) →
    (∀ r n, uop s.seq (s.upc.toNat + 1) = some (.nib r n) →
      step s = .next { s with
        upc := s.upc + 1, rsQ := r,
        dQ := (match n with
          | .const c => c
          | .hi => s.dreg.extractLsb' 4 4
          | .lo => s.dreg.extractLsb' 0 4),
        enQ := false, sub := .su, cnt := s.cfg.nSu, inputs := s.inputs.tail }) ∧
    ∀ k, uop s.seq (s.upc.toNat + 1) = some (.wait k) →
      step s = .next { s with upc := s.upc + 1, sub := .wt, cnt := s.cfg.count k, inputs := s.inputs.tail }

/-- R108. -/
def Obligations.FinishArmEndsTheProgram : Prop :=
  ∀ s : State, s.cfg.Legal → s.Inv → s.sample.rst = false → s.phase = .run → s.cnt = 1 → (s.sub = .el ∨ s.sub = .wt) →
    s.upc.toNat + 1 = len s.seq →
    s.sub = .wt ∧ ∃ t, step s = .next t ∧
      t = { s with phase := .idle, initDoneQ := (if s.seq = .init then true else s.initDoneQ), inputs := s.inputs.tail } ∧
      ready t = true

/-! ### Acceptance of a request -/

/-- R102, R180: `CMD b` in IDLE. Every field not named is unchanged. -/
def Obligations.CmdIsAcceptedInIdle : Prop :=
  ∀ (b : Byte) (s : State), s.cfg.Legal → s.phase = .idle →
    exec (.cmd b) s = .next { s with
      seq := .cmd, dreg := b, phase := .run, upc := 0#5, sub := .su, cnt := s.cfg.nSu, enQ := false, rsQ := false,
      dQ := b.extractLsb' 4 4 }

/-- R102, R181: `CHAR b` in IDLE. Every field not named is unchanged. -/
def Obligations.CharIsAcceptedInIdle : Prop :=
  ∀ (b : Byte) (s : State), s.cfg.Legal → s.phase = .idle →
    exec (.char b) s = .next { s with
      seq := .char, dreg := b, phase := .run, upc := 0#5, sub := .su, cnt := s.cfg.nSu, enQ := false, rsQ := true,
      dQ := b.extractLsb' 4 4 }

/-- R102, R182, R183: CLEAR and HOME in IDLE load their data byte into `dreg` and drive the high nibble of 0x01 and 0x02. Every field
not named is unchanged. -/
def Obligations.ClearAndHomeAreAcceptedInIdle : Prop :=
  ∀ (x : Byte) (s : State), s.cfg.Legal → s.phase = .idle →
    exec (.clear x) s = .next { s with
      seq := .clear, dreg := x, phase := .run, upc := 0#5, sub := .su, cnt := s.cfg.nSu, enQ := false, rsQ := false,
      dQ := 0x0#4 } ∧
    exec (.home x) s = .next { s with
      seq := .home, dreg := x, phase := .run, upc := 0#5, sub := .su, cnt := s.cfg.nSu, enQ := false, rsQ := false,
      dQ := 0x0#4 }

/-- R100, R204: a request presented while a program runs waits, with no effect of its own: the edge is the one with no request
presented. -/
def Obligations.RequestWaitsWhileAProgramRuns : Prop :=
  ∀ (i : Instr) (s : State), s.cfg.Legal → s.phase = .run →
    ∃ t, exec i s = .next t ∧ step { s with inputs := HostInput.quiet :: s.inputs } = .next t ∧ t.dreg = s.dreg ∧ t.seq = s.seq ∧
      t.inputs = s.inputs

/-- R21, R54: from the accept edge of CMD or CHAR, data line D(4+i) carries bit i of the byte's high nibble. -/
def Obligations.DataLinesCarryTheHighNibbleFirst : Prop :=
  ∀ (b : Byte) (s : State), s.cfg.Legal → s.phase = .idle →
    ∃ t u, exec (.cmd b) s = .next t ∧ exec (.char b) s = .next u ∧ lcdRs t = false ∧ lcdRs u = true ∧
      ∀ i, i < 4 → dataLine t (4 + i) = some (b.getLsbD (4 + i)) ∧ dataLine u (4 + i) = some (b.getLsbD (4 + i))

/-! ### Who writes what -/

/-- R57: while a program runs, no input other than `rst` changes the state: two runs from the same registers under any two input
sequences without reset have the same registers until the program ends. -/
def Obligations.OnlyResetDisturbsARunningProgram : Prop :=
  ∀ (s : State) (ins : List HostInput) (k : Nat), s.cfg.Legal → s.NoReset 0 k → { s with inputs := ins }.NoReset 0 k →
    (∀ j t, j < k → edges j s = .next t → t.phase = .run) →
    ∃ t u, edges k s = .next t ∧ edges k { s with inputs := ins } = .next u ∧ SameRegisters t u

/-- R28, R61: `dreg` is written only by reset, with 0x00, and by the accept edge, with the request's data byte. -/
def Obligations.DataRegisterIsWrittenOnlyAtAcceptAndReset : Prop :=
  ∀ s t : State, step s = .next t →
    (s.sample.rst = true → t.dreg = 0x00#8) ∧ (∀ i, acceptedAt s = some i → t.dreg = i.data) ∧
    (s.sample.rst = false → acceptedAt s = none → t.dreg = s.dreg)

/-- R23, R24, R29: `phase` becomes RUN only at a reset or an accept edge and IDLE only where the last micro-op of a program ends;
`seq` is written only by reset and accept; `init_done_q` becomes 1 only where INIT ends and 0 only at reset. -/
def Obligations.ControlRegistersChangeOnlyAsTheRulesSay : Prop :=
  ∀ s t : State, s.Inv → step s = .next t →
    (s.phase = .idle → t.phase = .run → s.sample.rst = true ∨ ∃ i, acceptedAt s = some i) ∧
    (s.phase = .run → t.phase = .idle → s.sample.rst = false ∧ s.cnt = 1 ∧ s.sub = .wt ∧ s.upc.toNat + 1 = len s.seq) ∧
    (s.sample.rst = true → t.seq = .init) ∧ (∀ i, acceptedAt s = some i → t.seq = seqOf i) ∧
    (s.sample.rst = false → acceptedAt s = none → t.seq = s.seq) ∧
    (s.initDoneQ = false → t.initDoneQ = true → s.phase = .run ∧ s.seq = .init ∧ t.phase = .idle) ∧
    (s.initDoneQ = true → t.initDoneQ = false → s.sample.rst = true)

/-- R131, R52: `en_q` rises only at the RISE edge, which ends SU, and falls only at the FALL edge, which ends EH, and at reset. -/
def Obligations.EnableChangesOnlyAtRiseFallAndReset : Prop :=
  ∀ s t : State, s.Inv → step s = .next t →
    (s.enQ = false → (t.enQ = true ↔ s.sample.rst = false ∧ s.phase = .run ∧ s.cnt = 1 ∧ s.sub = .su)) ∧
    (s.enQ = true → (t.enQ = false ↔ s.sample.rst = true ∨ s.cnt = 1))

/-- R132, R134, R232: but for reset, RS and the data lines change only at the Start of a NIB, and never at an edge of EN. -/
def Obligations.BusDataChangesOnlyAtTheStartOfANibble : Prop :=
  ∀ s t : State, s.Inv → step s = .next t → s.sample.rst = false → t.rsQ ≠ s.rsQ ∨ t.dQ ≠ s.dQ →
    t.phase = .run ∧ t.sub = .su ∧ t.cnt = s.cfg.nSu ∧ s.enQ = false ∧ t.enQ = false ∧
    ∃ r n, uop t.seq t.upc.toNat = some (.nib r n) ∧ t.rsQ = r ∧ t.dQ = nibValue n t.dreg

/-! ### Invariants -/

/-- R35, R37, R117: the invariants hold in the reset state of every legal configuration and after every reset edge. -/
def Obligations.InvariantsHoldAfterReset : Prop :=
  (∀ c : Config, c.Legal → (State.resetOf c).Inv ∧ (State.resetOf c).Rests) ∧
  ∀ s t : State, s.sample.rst = true → step s = .next t → t.Inv ∧ t.Rests

/-- R117: every edge keeps the six invariants of R37, for every input; every reset edge establishes them, in any state; so they hold in
every cycle after the first reset edge. -/
def Obligations.EveryEdgeKeepsTheInvariants : Prop :=
  (∀ s t : State, s.Inv ∨ s.sample.rst = true → step s = .next t → t.Inv) ∧
  ∀ (s t u : State) (k : Nat), s.sample.rst = true → step s = .next t → edges k t = .next u → u.Inv

/-- R25, R27: `upc` stays below the length of its program, and in IDLE it is the index of the last micro-op and `cnt` holds 1. -/
def Obligations.EveryEdgeKeepsTheRestingValues : Prop :=
  ∀ s t : State, s.Inv → s.Rests → step s = .next t → t.Rests

/-! ### Durations and waveforms -/

/-- R110: a sub-phase loaded with count N is in force for exactly N cycles, and the edge that ends them loads the next one, or
IDLE. -/
def Obligations.SubPhaseLastsItsCount : Prop :=
  ∀ s : State, s.cfg.Legal → s.phase = .run → 1 ≤ s.cnt → s.NoReset 0 s.cnt →
    (∀ j, j < s.cnt → edges j s = .next { s with cnt := s.cnt - j, inputs := s.inputs.drop j }) ∧
    ∃ t, edges s.cnt s = .next t ∧ (s.sub = .su → t.sub = .eh ∧ t.cnt = s.cfg.nEh ∧ t.phase = .run ∧ t.upc = s.upc) ∧
      (s.sub = .eh → t.sub = .el ∧ t.cnt = s.cfg.nEl ∧ t.phase = .run ∧ t.upc = s.upc) ∧
      (s.sub = .el ∨ s.sub = .wt →
        (s.upc.toNat + 1 < len s.seq → t.phase = .run ∧ t.upc = s.upc + 1 ∧
          ∃ u, uop s.seq (s.upc.toNat + 1) = some u ∧
            match u with
            | .nib _ _ => t.sub = .su ∧ t.cnt = s.cfg.nSu
            | .wait k => t.sub = .wt ∧ t.cnt = s.cfg.count k) ∧
        (len s.seq ≤ s.upc.toNat + 1 → t.phase = .idle))

/-- R130, R131, R132: the waveform of a NIB from its Start: EN is high in exactly the cycles `N_SU + 1` to `N_SU + N_EH`, RS and the
data lines are constant, and its one transfer is at the edge that ends cycle `N_SU + N_EH`. The state `s` is that of its cycle 1, and
cycle m + 1 is the state after m edges. -/
def Obligations.NibbleWaveform : Prop :=
  ∀ s : State, s.cfg.Legal → s.phase = .run → s.sub = .su → s.cnt = s.cfg.nSu → s.enQ = false → s.NoReset 0 s.cfg.dNib →
    (∀ m, m < s.cfg.dNib → ∃ t, edges m s = .next t ∧ t.phase = .run ∧ t.seq = s.seq ∧ t.upc = s.upc ∧
      (lcdEn t = true ↔ s.cfg.nSu + 1 ≤ m + 1 ∧ m + 1 ≤ s.cfg.nSu + s.cfg.nEh) ∧ lcdRs t = s.rsQ ∧ lcdD t = s.dQ) ∧
    traceFrom 1 s.cfg.dNib s = [(s.cfg.nSu + s.cfg.nEh, ⟨s.rsQ, s.dQ, false⟩)]

/-- R111, R112: every program, just loaded and not reset, occupies exactly `L(P)` cycles, makes exactly the transfers its listing gives
at the edges its durations give, and ends in IDLE; no request is accepted before its FINISH, and one presented at the edge after it
is accepted there. The state `s` is that of cycle 1 after the loading edge E0, so the first edge from `s` is E1. -/
def Obligations.ProgramLatencyAndSchedule : Prop :=
  ∀ (q : Seq) (u : MicroOp) (s : State), s.cfg.Legal → s.phase = .run → s.seq = q → s.upc = 0#5 → uop q 0 = some u →
    start u s.dreg s = s → s.enQ = false → s.NoReset 0 (latency s.cfg q) →
    (∀ j, j < latency s.cfg q → ∃ t, edges j s = .next t ∧ ready t = false ∧ t.seq = q ∧ t.dreg = s.dreg) ∧
    accepted (latency s.cfg q) s = [] ∧
    (∃ t, edges (latency s.cfg q) s = .next t ∧ ready t = true ∧ t.seq = q ∧ t.upc.toNat + 1 = len q ∧ t.dreg = s.dreg ∧
      t.enQ = false ∧ ∀ i, t.Presents 0 i → ∃ v, step t = .next v ∧ v.phase = .run ∧ v.seq = seqOf i ∧ v.dreg = i.data) ∧
    traceFrom 1 (latency s.cfg q) s = schedule s.cfg s.dreg 0 (program q)

/-- R180: `CMD b` from accept edge E0 to IDLE. -/
def Obligations.CmdRunsItsWholeProgram : Prop :=
  ∀ (b : Byte) (s : State), s.cfg.Legal → s.Inv → s.phase = .idle → s.Presents 0 (.cmd b) →
    s.NoReset 1 (2 * s.cfg.dNib + s.cfg.nCmd + 1) →
    edges (2 * s.cfg.dNib + s.cfg.nCmd + 1) s = .next { s with
      seq := .cmd, dreg := b, upc := 2#5, sub := .wt, cnt := 1, enQ := false, rsQ := false, dQ := b.extractLsb' 0 4,
      inputs := s.inputs.drop (2 * s.cfg.dNib + s.cfg.nCmd + 1) } ∧
    trace (2 * s.cfg.dNib + s.cfg.nCmd + 1) s =
      [(s.cfg.nSu + s.cfg.nEh, ⟨false, b.extractLsb' 4 4, false⟩),
       (2 * s.cfg.nSu + 2 * s.cfg.nEh + s.cfg.nEl, ⟨false, b.extractLsb' 0 4, false⟩)] ∧
    ∀ j, 1 ≤ j → j ≤ 2 * s.cfg.dNib + s.cfg.nCmd → ∃ t, edges j s = .next t ∧ ready t = false

/-- R181: `CHAR b` from accept edge E0 to IDLE, with the second write-data settle. -/
def Obligations.CharRunsItsWholeProgram : Prop :=
  ∀ (b : Byte) (s : State), s.cfg.Legal → s.Inv → s.phase = .idle → s.Presents 0 (.char b) →
    s.NoReset 1 (2 * s.cfg.dNib + 2 * s.cfg.nData + 1) →
    edges (2 * s.cfg.dNib + 2 * s.cfg.nData + 1) s = .next { s with
      seq := .char, dreg := b, upc := 3#5, sub := .wt, cnt := 1, enQ := false, rsQ := true, dQ := b.extractLsb' 0 4,
      inputs := s.inputs.drop (2 * s.cfg.dNib + 2 * s.cfg.nData + 1) } ∧
    trace (2 * s.cfg.dNib + 2 * s.cfg.nData + 1) s =
      [(s.cfg.nSu + s.cfg.nEh, ⟨true, b.extractLsb' 4 4, false⟩),
       (2 * s.cfg.nSu + 2 * s.cfg.nEh + s.cfg.nEl, ⟨true, b.extractLsb' 0 4, false⟩)] ∧
    ∀ j, 1 ≤ j → j ≤ 2 * s.cfg.dNib + 2 * s.cfg.nData → ∃ t, edges j s = .next t ∧ ready t = false

/-- R182, R186: CLEAR from accept edge E0 to IDLE: command byte 0x01, then the command settle and the extra settle, for every data
field. -/
def Obligations.ClearRunsItsWholeProgram : Prop :=
  ∀ (x : Byte) (s : State), s.cfg.Legal → s.Inv → s.phase = .idle → s.Presents 0 (.clear x) →
    s.NoReset 1 (2 * s.cfg.dNib + s.cfg.nCmd + s.cfg.nClear + 1) →
    edges (2 * s.cfg.dNib + s.cfg.nCmd + s.cfg.nClear + 1) s = .next { s with
      seq := .clear, dreg := x, upc := 3#5, sub := .wt, cnt := 1, enQ := false, rsQ := false, dQ := 0x1#4,
      inputs := s.inputs.drop (2 * s.cfg.dNib + s.cfg.nCmd + s.cfg.nClear + 1) } ∧
    trace (2 * s.cfg.dNib + s.cfg.nCmd + s.cfg.nClear + 1) s =
      [(s.cfg.nSu + s.cfg.nEh, ⟨false, 0x0#4, false⟩),
       (2 * s.cfg.nSu + 2 * s.cfg.nEh + s.cfg.nEl, ⟨false, 0x1#4, false⟩)] ∧
    ∀ j, 1 ≤ j → j ≤ 2 * s.cfg.dNib + s.cfg.nCmd + s.cfg.nClear → ∃ t, edges j s = .next t ∧ ready t = false

/-- R183, R186: HOME from accept edge E0 to IDLE: command byte 0x02, then the command settle and the extra settle, for every data
field. -/
def Obligations.HomeRunsItsWholeProgram : Prop :=
  ∀ (x : Byte) (s : State), s.cfg.Legal → s.Inv → s.phase = .idle → s.Presents 0 (.home x) →
    s.NoReset 1 (2 * s.cfg.dNib + s.cfg.nCmd + s.cfg.nHome + 1) →
    edges (2 * s.cfg.dNib + s.cfg.nCmd + s.cfg.nHome + 1) s = .next { s with
      seq := .home, dreg := x, upc := 3#5, sub := .wt, cnt := 1, enQ := false, rsQ := false, dQ := 0x2#4,
      inputs := s.inputs.drop (2 * s.cfg.dNib + s.cfg.nCmd + s.cfg.nHome + 1) } ∧
    trace (2 * s.cfg.dNib + s.cfg.nCmd + s.cfg.nHome + 1) s =
      [(s.cfg.nSu + s.cfg.nEh, ⟨false, 0x0#4, false⟩),
       (2 * s.cfg.nSu + 2 * s.cfg.nEh + s.cfg.nEl, ⟨false, 0x2#4, false⟩)] ∧
    ∀ j, 1 ≤ j → j ≤ 2 * s.cfg.dNib + s.cfg.nCmd + s.cfg.nHome → ∃ t, edges j s = .next t ∧ ready t = false

/-- R166, R167, R168: INIT from the reset state, whatever requests are presented, to the first IDLE cycle: 12 transfers, all with RS = 0,
at the edges the listing gives after the reset edge E0 (the first edge from the reset state is E1); `ready` and `init_done` are 0
before. -/
def Obligations.InitRunsItsWholeProgram : Prop :=
  ∀ (c : Config) (ins : List HostInput), c.Legal →
    let s := { State.resetOf c with inputs := ins }
    let h := c.nSu + c.nEh
    let d := c.dNib
    let b := c.nPowerup + 4 * d + c.nRst1 + c.nRst2 + c.nRst3 + c.nBus4
    let l := b + 8 * d + 4 * c.nCmd + c.nClear + c.nHome
    s.NoReset 0 l →
    edges l s = .next { s with
      phase := .idle, upc := 22#5, sub := .wt, cnt := 1, initDoneQ := true, dQ := 0x2#4, inputs := ins.drop l } ∧
    traceFrom 1 l s =
      [(c.nPowerup + h, ⟨false, 0x3#4, false⟩),
       (c.nPowerup + d + c.nRst1 + h, ⟨false, 0x3#4, false⟩),
       (c.nPowerup + 2 * d + c.nRst1 + c.nRst2 + h, ⟨false, 0x3#4, false⟩),
       (c.nPowerup + 3 * d + c.nRst1 + c.nRst2 + c.nRst3 + h, ⟨false, 0x2#4, false⟩),
       (b + h, ⟨false, 0x2#4, false⟩), (b + d + h, ⟨false, 0x8#4, false⟩),
       (b + 2 * d + c.nCmd + h, ⟨false, 0x0#4, false⟩), (b + 3 * d + c.nCmd + h, ⟨false, 0xC#4, false⟩),
       (b + 4 * d + 2 * c.nCmd + h, ⟨false, 0x0#4, false⟩), (b + 5 * d + 2 * c.nCmd + h, ⟨false, 0x1#4, false⟩),
       (b + 6 * d + 3 * c.nCmd + c.nClear + h, ⟨false, 0x0#4, false⟩),
       (b + 7 * d + 3 * c.nCmd + c.nClear + h, ⟨false, 0x2#4, false⟩)] ∧
    ∀ j, j < l → ∃ t, edges j s = .next t ∧ ready t = false ∧ initDone t = false

/-- R185: what a request shows on the bus after its accept edge does not depend on what happened before: from any two idle states of one
configuration, the same request shows the same outputs in every cycle up to its FINISH. -/
def Obligations.RequestWaveformIgnoresThePast : Prop :=
  ∀ (i : Instr) (s t : State) (j : Nat), s.cfg.Legal → t.cfg = s.cfg → s.phase = .idle → t.phase = .idle →
    s.Presents 0 i → t.Presents 0 i → 1 ≤ j → j ≤ latency s.cfg (seqOf i) + 1 → s.NoReset 1 j → t.NoReset 1 j →
    ∃ u v, edges j s = .next u ∧ edges j t = .next v ∧
      lcdEn u = lcdEn v ∧ lcdRs u = lcdRs v ∧ lcdD u = lcdD v ∧ ready u = ready v

/-- R186: the data field of CLEAR and of HOME is loaded into `dreg` and has no observable effect, ever: whatever follows, the two runs
differ in `dreg` at most and make the same transfers. -/
def Obligations.ClearAndHomeDataIsNeverObserved : Prop :=
  ∀ (x y : Byte) (s : State), s.cfg.Legal → s.phase = .idle →
    ∃ t u v w, exec (.clear x) s = .next t ∧ exec (.clear y) s = .next u ∧ exec (.home x) s = .next v ∧ exec (.home y) s = .next w ∧
      t.dreg = x ∧ u.dreg = y ∧ v.dreg = x ∧ w.dreg = y ∧
      ∀ k, trace k t = trace k u ∧ trace k v = trace k w ∧
        ∃ t' u' v' w', edges k t = .next t' ∧ edges k u = .next u' ∧ edges k v = .next v' ∧ edges k w = .next w' ∧
          { t' with dreg := 0x00#8 } = { u' with dreg := 0x00#8 } ∧ { v' with dreg := 0x00#8 } = { w' with dreg := 0x00#8 }

/-! ### The transfer trace -/

/-- R58, R59: between two idle states without a reset, the transfers are exactly the concatenation, in acceptance order, of the
transfers of the accepted requests: none repeated, merged, dropped or reordered. -/
def Obligations.TransfersAreThoseOfTheAcceptedRequests : Prop :=
  ∀ (s t : State) (k : Nat), s.Inv → s.phase = .idle → s.NoReset 0 k → edges k s = .next t → t.phase = .idle →
    transfers k s = (accepted k s).flatMap (fun i =>
      match i with
      | .cmd b => [⟨false, b.extractLsb' 4 4, false⟩, ⟨false, b.extractLsb' 0 4, false⟩]
      | .char b => [⟨true, b.extractLsb' 4 4, false⟩, ⟨true, b.extractLsb' 0 4, false⟩]
      | .clear _ => [⟨false, 0x0#4, false⟩, ⟨false, 0x1#4, false⟩]
      | .home _ => [⟨false, 0x0#4, false⟩, ⟨false, 0x2#4, false⟩])

/-- R118, R58, R133: the transfer trace after the last reset depends only on the sequence of accepted requests: two runs from the reset
state, under any input schedules and even any two legal configurations, that accept the same requests and end in IDLE make the same
transfers. -/
def Obligations.TransfersDependOnlyOnTheAcceptedRequests : Prop :=
  ∀ (c d : Config) (ins jns : List HostInput) (k l : Nat) (t u : State),
    { State.resetOf c with inputs := ins }.NoReset 0 k → { State.resetOf d with inputs := jns }.NoReset 0 l →
    edges k { State.resetOf c with inputs := ins } = .next t → edges l { State.resetOf d with inputs := jns } = .next u →
    t.phase = .idle → u.phase = .idle →
    accepted k { State.resetOf c with inputs := ins } = accepted l { State.resetOf d with inputs := jns } →
    transfers k { State.resetOf c with inputs := ins } = transfers l { State.resetOf d with inputs := jns }

/-- R59: without a reset, every transfer follows the previous one by at least `N_EL + N_SU + N_EH` cycles. -/
def Obligations.TransfersAreSpaced : Prop :=
  ∀ (s : State) (k : Nat), s.cfg.Legal → s.Inv → s.NoReset 0 k →
    (trace k s).Pairwise (fun a b => a.1 + (s.cfg.nEl + s.cfg.nSu + s.cfg.nEh) ≤ b.1)

/-- R112, R60: a request presented at the edge after the running one's FINISH is accepted there, after one idle cycle, and the second
request's first transfer follows the first request's last one by exactly `N_EL + S + 1 + N_SU + N_EH` cycles, with S the trailing
waits. -/
def Obligations.BackToBackRequestsAreOneCycleApart : Prop :=
  ∀ (i j : Instr) (s : State), s.cfg.Legal → s.Inv → s.phase = .idle → s.Presents 0 i →
    s.Presents (latency s.cfg (seqOf i) + 1) j →
    s.NoReset 1 (latency s.cfg (seqOf i) + latency s.cfg (seqOf j) + 2) →
    accepted (latency s.cfg (seqOf i) + latency s.cfg (seqOf j) + 2) s = [i, j] ∧
    trace (latency s.cfg (seqOf i) + latency s.cfg (seqOf j) + 2) s =
      schedule s.cfg i.data 0 (program (seqOf i)) ++
        schedule s.cfg j.data (latency s.cfg (seqOf i) + 1) (program (seqOf j)) ∧
    ∃ a b e f g h, schedule s.cfg i.data 0 (program (seqOf i)) = [(e, a), (f, b)] ∧
      (schedule s.cfg j.data (latency s.cfg (seqOf i) + 1) (program (seqOf j))).head? = some (g, h) ∧
      g = f + s.cfg.nEl + (latency s.cfg (seqOf i) - 2 * s.cfg.dNib) + 1 + s.cfg.nSu + s.cfg.nEh

/-- R81, R82, R184: `PRINT` of any text on the eager host, from IDLE: its last request finishes exactly
`L(CLEAR) + 1 + L(HOME) + 1 + n(L(CHAR) + 1) − 1` cycles after the first accept edge, and the transfers are those of clear, of home, and
of each byte in order, with no interleaving. `tm` is the timing a RESET line would take, of which `PRINT` has none. -/
def Obligations.PrintRunsOnTheEagerHost : Prop :=
  ∀ (text : List Byte) (tm : ResetTiming) (s : State), s.cfg.Legal → s.Inv → s.phase = .idle →
    let n := latency s.cfg .clear + 1 + latency s.cfg .home + 1 + text.length * (latency s.cfg .char + 1) - 1
    let r := eagerStart (n + 1) (assembleLine tm (.print text)) s
    (∃ t, edges (n + 1) r = .next t ∧ t.phase = .idle ∧ t.inputs = []) ∧ (∃ t, edges n r = .next t ∧ t.phase = .run) ∧
    accepted (n + 1) r = .clear 0x00#8 :: .home 0x00#8 :: text.map (fun b => .char b) ∧
    transfers (n + 1) r =
      [⟨false, 0x0#4, false⟩, ⟨false, 0x1#4, false⟩, ⟨false, 0x0#4, false⟩, ⟨false, 0x2#4, false⟩] ++
        text.flatMap (fun b => [⟨true, b.extractLsb' 4 4, false⟩, ⟨true, b.extractLsb' 0 4, false⟩])

/-- R82, R221, with the timing of a RESET line in the model's form (log 14): the program `i`, RESET, `j` on the eager host from IDLE, the
RESET at edge `w + 1` after the accept edge and the `e` edges after it. The transfers are those of `i` that come before the first reset
edge, the one that this edge aborts if EN is high before it, those of INIT counted from the last reset edge, and those of `j`,
accepted at the first IDLE edge after INIT. The end state of the program is that after `j`'s FINISH. P5 of 95_test_vectors.md is a
RESET followed by such a program. -/
def Obligations.ResetLineOnTheEagerHost : Prop :=
  ∀ (i j : Instr) (w e : Nat) (s : State), s.cfg.Legal → s.Inv → s.phase = .idle →
    let a := w + 1
    let z := a + e
    let f := z + latency s.cfg .init + 1
    let n := f + latency s.cfg (seqOf j) + 1
    let acts := [.request i, .reset ⟨w, e⟩, .request j]
    let r := eagerStart n acts s
    let p := schedule s.cfg i.data 0 (program (seqOf i))
    accepted n r = [i, j] ∧
    trace n r =
      p.filter (fun x => x.1 < a) ++
        (p.filter (fun x => a ≤ x.1 ∧ x.1 < a + s.cfg.nEh)).map (fun x => (a, { x.2 with aborted := true })) ++
        schedule s.cfg 0x00#8 z (program .init) ++ schedule s.cfg j.data f (program (seqOf j)) ∧
    (∃ t, edges (z + 1) r = .next t ∧ SameRegisters t (State.resetOf s.cfg)) ∧
    ∃ t, edges n r = .next t ∧ endState n acts s = some t ∧ t.seq = seqOf j ∧ t.dreg = j.data
end

