-- ==== Sys2Proof/Laws/Decode.lean ====
section
/-! SUPPORT. Small facts about the fields of a request word. -/

namespace Sys2Proof.Laws

@[simp] theorem opField_append (op : BitVec 2) (b : Byte) : opField (op ++ b) = op := by
  apply BitVec.eq_of_getLsbD_eq
  intro k hk
  simp only [opField, BitVec.getLsbD_extractLsb', BitVec.getLsbD_append]
  simp [hk]

@[simp] theorem dataField_append (op : BitVec 2) (b : Byte) : dataField (op ++ b) = b := by
  apply BitVec.eq_of_getLsbD_eq
  intro k hk
  simp only [dataField, BitVec.getLsbD_extractLsb', BitVec.getLsbD_append]
  simp [hk]

/-- A word is its two fields. -/
theorem opField_append_dataField (w : ReqWord) : opField w ++ dataField w = w := by
  apply BitVec.eq_of_getLsbD_eq
  intro k hk
  simp only [opField, dataField, BitVec.getLsbD_append, BitVec.getLsbD_extractLsb']
  by_cases h : k < 8
  · simp [h]
  · simp [h, show 8 + (k - 8) = k by omega, show k - 8 < 2 by omega]

/-- Decoding by fields undoes the op and data of a request. -/
@[simp] theorem decodeFields_opOf (i : Instr) : decodeFields (opOf i) i.data = i := by
  cases i <;> rfl

theorem opOf_decodeFields (op : BitVec 2) (b : Byte) : opOf (decodeFields op b) = op ∧ (decodeFields op b).data = b := by
  unfold decodeFields
  split
  · simp_all [opOf, Instr.data]
  · split
    · simp_all [opOf, Instr.data]
    · split
      · simp_all [opOf, Instr.data]
      · refine ⟨?_, rfl⟩
        simp only [opOf]
        revert op
        decide

end Sys2Proof.Laws
end

