-- ==== Sys2Proof/Laws/Programs.lean ====
section
/-! SUPPORT. Facts about the micro-program listings. -/

namespace Sys2Proof.Laws

open Sys2Proof.Machine

/-- Every program has an entry 0. -/
theorem uop_zero_isSome (q : Seq) : (uop q 0).isSome = true := by cases q <;> rfl

/-- The entry 0 of a request program is a NIB (R102); `n` is `HI(dreg)` or the high nibble of the constant byte. -/
theorem uop_zero_request (i : Instr) : ∃ r n, uop (seqOf i) 0 = some (.nib r n) := by
  cases i <;> exact ⟨_, _, rfl⟩

theorem seqOf_ne_init (i : Instr) : seqOf i ≠ .init := by cases i <;> simp [seqOf]

theorem len_le (q : Seq) : len q ≤ 23 := by cases q <;> decide

theorem len_pos (q : Seq) : 0 < len q := by cases q <;> decide

/-- `uop` has an entry exactly below `len` (R76). -/
theorem uop_eq_none_iff (q : Seq) (i : Nat) : uop q i = none ↔ len q ≤ i := by
  simp [uop, len]

theorem uop_lt {q : Seq} {i : Nat} {u : MicroOp} (h : uop q i = some u) : i < len q := by
  by_contra hn
  rw [(uop_eq_none_iff q i).2 (Nat.le_of_not_lt hn)] at h
  cases h

/-- Every program ends in a WAIT (R108). -/
theorem uop_last (q : Seq) : ∃ k, uop q (len q - 1) = some (.wait k) := by
  cases q <;> exact ⟨_, rfl⟩

/-- The programs but CMD and CHAR do not read `dreg` (R160, R185). -/
theorem uop_const_of_not_byte {q : Seq} (h : q ≠ .cmd ∧ q ≠ .char) {i : Nat} {r : Bool} {n : NibSrc}
    (hu : uop q i = some (.nib r n)) : ∃ c, n = .const c := by
  have hmem : MicroOp.nib r n ∈ program q := List.mem_of_getElem? hu
  cases q with
  | cmd => exact absurd rfl h.1
  | char => exact absurd rfl h.2
  | init =>
    simp only [program, programInit, programInitHead, programClear, programHome, sendConst, settleWait, List.mem_append,
      List.mem_cons, List.not_mem_nil, MicroOp.nib.injEq, reduceCtorEq, or_false, false_or] at hmem
    aesop
  | clear =>
    simp only [program, programClear, sendConst, settleWait, List.mem_append, List.mem_cons, List.not_mem_nil,
      MicroOp.nib.injEq, reduceCtorEq, or_false] at hmem
    aesop
  | home =>
    simp only [program, programHome, sendConst, settleWait, List.mem_append, List.mem_cons, List.not_mem_nil,
      MicroOp.nib.injEq, reduceCtorEq, or_false] at hmem
    aesop

end Sys2Proof.Laws
end

