-- ==== Sys2Proof/Laws/State.lean ====
section
/-! SUPPORT. One lemma per field per update of State, so that no later proof unfolds a record update. -/

namespace Sys2Proof.Laws

open Sys2Proof.Machine

/-! Taking and placing an input sample. -/

@[simp] theorem popInput_cfg (s : State) : (s.popInput).cfg = s.cfg := rfl
@[simp] theorem popInput_phase (s : State) : (s.popInput).phase = s.phase := rfl
@[simp] theorem popInput_seq (s : State) : (s.popInput).seq = s.seq := rfl
@[simp] theorem popInput_upc (s : State) : (s.popInput).upc = s.upc := rfl
@[simp] theorem popInput_sub (s : State) : (s.popInput).sub = s.sub := rfl
@[simp] theorem popInput_cnt (s : State) : (s.popInput).cnt = s.cnt := rfl
@[simp] theorem popInput_dreg (s : State) : (s.popInput).dreg = s.dreg := rfl
@[simp] theorem popInput_initDoneQ (s : State) : (s.popInput).initDoneQ = s.initDoneQ := rfl
@[simp] theorem popInput_enQ (s : State) : (s.popInput).enQ = s.enQ := rfl
@[simp] theorem popInput_rsQ (s : State) : (s.popInput).rsQ = s.rsQ := rfl
@[simp] theorem popInput_dQ (s : State) : (s.popInput).dQ = s.dQ := rfl
@[simp] theorem popInput_inputs (s : State) : (s.popInput).inputs = s.inputs.tail := rfl
@[simp] theorem pushInput_cfg (p : HostInput) (s : State) : (s.pushInput p).cfg = s.cfg := rfl
@[simp] theorem pushInput_phase (p : HostInput) (s : State) : (s.pushInput p).phase = s.phase := rfl
@[simp] theorem pushInput_seq (p : HostInput) (s : State) : (s.pushInput p).seq = s.seq := rfl
@[simp] theorem pushInput_upc (p : HostInput) (s : State) : (s.pushInput p).upc = s.upc := rfl
@[simp] theorem pushInput_sub (p : HostInput) (s : State) : (s.pushInput p).sub = s.sub := rfl
@[simp] theorem pushInput_cnt (p : HostInput) (s : State) : (s.pushInput p).cnt = s.cnt := rfl
@[simp] theorem pushInput_dreg (p : HostInput) (s : State) : (s.pushInput p).dreg = s.dreg := rfl
@[simp] theorem pushInput_initDoneQ (p : HostInput) (s : State) : (s.pushInput p).initDoneQ = s.initDoneQ := rfl
@[simp] theorem pushInput_enQ (p : HostInput) (s : State) : (s.pushInput p).enQ = s.enQ := rfl
@[simp] theorem pushInput_rsQ (p : HostInput) (s : State) : (s.pushInput p).rsQ = s.rsQ := rfl
@[simp] theorem pushInput_dQ (p : HostInput) (s : State) : (s.pushInput p).dQ = s.dQ := rfl
@[simp] theorem pushInput_inputs (p : HostInput) (s : State) : (s.pushInput p).inputs = p :: s.inputs := rfl

/-! RESET (R101). -/

@[simp] theorem resetArm_cfg (s : State) : (resetArm s).cfg = s.cfg := rfl
@[simp] theorem resetArm_phase (s : State) : (resetArm s).phase = .run := rfl
@[simp] theorem resetArm_seq (s : State) : (resetArm s).seq = .init := rfl
@[simp] theorem resetArm_upc (s : State) : (resetArm s).upc = 0#5 := rfl
@[simp] theorem resetArm_sub (s : State) : (resetArm s).sub = .wt := rfl
@[simp] theorem resetArm_cnt (s : State) : (resetArm s).cnt = s.cfg.nPowerup := rfl
@[simp] theorem resetArm_dreg (s : State) : (resetArm s).dreg = 0x00#8 := rfl
@[simp] theorem resetArm_initDoneQ (s : State) : (resetArm s).initDoneQ = false := rfl
@[simp] theorem resetArm_enQ (s : State) : (resetArm s).enQ = false := rfl
@[simp] theorem resetArm_rsQ (s : State) : (resetArm s).rsQ = false := rfl
@[simp] theorem resetArm_dQ (s : State) : (resetArm s).dQ = 0x0#4 := rfl
@[simp] theorem resetArm_inputs (s : State) : (resetArm s).inputs = s.inputs := rfl

/-! COUNT (R104). -/

@[simp] theorem countArm_cfg (s : State) : (countArm s).cfg = s.cfg := rfl
@[simp] theorem countArm_phase (s : State) : (countArm s).phase = s.phase := rfl
@[simp] theorem countArm_seq (s : State) : (countArm s).seq = s.seq := rfl
@[simp] theorem countArm_upc (s : State) : (countArm s).upc = s.upc := rfl
@[simp] theorem countArm_sub (s : State) : (countArm s).sub = s.sub := rfl
@[simp] theorem countArm_cnt (s : State) : (countArm s).cnt = s.cnt - 1 := rfl
@[simp] theorem countArm_dreg (s : State) : (countArm s).dreg = s.dreg := rfl
@[simp] theorem countArm_initDoneQ (s : State) : (countArm s).initDoneQ = s.initDoneQ := rfl
@[simp] theorem countArm_enQ (s : State) : (countArm s).enQ = s.enQ := rfl
@[simp] theorem countArm_rsQ (s : State) : (countArm s).rsQ = s.rsQ := rfl
@[simp] theorem countArm_dQ (s : State) : (countArm s).dQ = s.dQ := rfl
@[simp] theorem countArm_inputs (s : State) : (countArm s).inputs = s.inputs := rfl

/-! RISE (R105). -/

@[simp] theorem riseArm_cfg (s : State) : (riseArm s).cfg = s.cfg := rfl
@[simp] theorem riseArm_phase (s : State) : (riseArm s).phase = s.phase := rfl
@[simp] theorem riseArm_seq (s : State) : (riseArm s).seq = s.seq := rfl
@[simp] theorem riseArm_upc (s : State) : (riseArm s).upc = s.upc := rfl
@[simp] theorem riseArm_sub (s : State) : (riseArm s).sub = .eh := rfl
@[simp] theorem riseArm_cnt (s : State) : (riseArm s).cnt = s.cfg.nEh := rfl
@[simp] theorem riseArm_dreg (s : State) : (riseArm s).dreg = s.dreg := rfl
@[simp] theorem riseArm_initDoneQ (s : State) : (riseArm s).initDoneQ = s.initDoneQ := rfl
@[simp] theorem riseArm_enQ (s : State) : (riseArm s).enQ = true := rfl
@[simp] theorem riseArm_rsQ (s : State) : (riseArm s).rsQ = s.rsQ := rfl
@[simp] theorem riseArm_dQ (s : State) : (riseArm s).dQ = s.dQ := rfl
@[simp] theorem riseArm_inputs (s : State) : (riseArm s).inputs = s.inputs := rfl

/-! FALL (R106). -/

@[simp] theorem fallArm_cfg (s : State) : (fallArm s).cfg = s.cfg := rfl
@[simp] theorem fallArm_phase (s : State) : (fallArm s).phase = s.phase := rfl
@[simp] theorem fallArm_seq (s : State) : (fallArm s).seq = s.seq := rfl
@[simp] theorem fallArm_upc (s : State) : (fallArm s).upc = s.upc := rfl
@[simp] theorem fallArm_sub (s : State) : (fallArm s).sub = .el := rfl
@[simp] theorem fallArm_cnt (s : State) : (fallArm s).cnt = s.cfg.nEl := rfl
@[simp] theorem fallArm_dreg (s : State) : (fallArm s).dreg = s.dreg := rfl
@[simp] theorem fallArm_initDoneQ (s : State) : (fallArm s).initDoneQ = s.initDoneQ := rfl
@[simp] theorem fallArm_enQ (s : State) : (fallArm s).enQ = false := rfl
@[simp] theorem fallArm_rsQ (s : State) : (fallArm s).rsQ = s.rsQ := rfl
@[simp] theorem fallArm_dQ (s : State) : (fallArm s).dQ = s.dQ := rfl
@[simp] theorem fallArm_inputs (s : State) : (fallArm s).inputs = s.inputs := rfl

/-! FINISH (R108). -/

@[simp] theorem finishArm_cfg (s : State) : (finishArm s).cfg = s.cfg := rfl
@[simp] theorem finishArm_phase (s : State) : (finishArm s).phase = .idle := rfl
@[simp] theorem finishArm_seq (s : State) : (finishArm s).seq = s.seq := rfl
@[simp] theorem finishArm_upc (s : State) : (finishArm s).upc = s.upc := rfl
@[simp] theorem finishArm_sub (s : State) : (finishArm s).sub = s.sub := rfl
@[simp] theorem finishArm_cnt (s : State) : (finishArm s).cnt = s.cnt := rfl
@[simp] theorem finishArm_dreg (s : State) : (finishArm s).dreg = s.dreg := rfl
@[simp] theorem finishArm_initDoneQ (s : State) : (finishArm s).initDoneQ = (s.seq == .init || s.initDoneQ) := rfl
@[simp] theorem finishArm_enQ (s : State) : (finishArm s).enQ = s.enQ := rfl
@[simp] theorem finishArm_rsQ (s : State) : (finishArm s).rsQ = s.rsQ := rfl
@[simp] theorem finishArm_dQ (s : State) : (finishArm s).dQ = s.dQ := rfl
@[simp] theorem finishArm_inputs (s : State) : (finishArm s).inputs = s.inputs := rfl

/-! Start of a NIB (R130). -/

@[simp] theorem start_nib_cfg (r : Bool) (n : NibSrc) (b : Byte) (s : State) : (start (.nib r n) b s).cfg = s.cfg := rfl
@[simp] theorem start_nib_phase (r : Bool) (n : NibSrc) (b : Byte) (s : State) : (start (.nib r n) b s).phase = s.phase := rfl
@[simp] theorem start_nib_seq (r : Bool) (n : NibSrc) (b : Byte) (s : State) : (start (.nib r n) b s).seq = s.seq := rfl
@[simp] theorem start_nib_upc (r : Bool) (n : NibSrc) (b : Byte) (s : State) : (start (.nib r n) b s).upc = s.upc := rfl
@[simp] theorem start_nib_sub (r : Bool) (n : NibSrc) (b : Byte) (s : State) : (start (.nib r n) b s).sub = .su := rfl
@[simp] theorem start_nib_cnt (r : Bool) (n : NibSrc) (b : Byte) (s : State) : (start (.nib r n) b s).cnt = s.cfg.nSu := rfl
@[simp] theorem start_nib_dreg (r : Bool) (n : NibSrc) (b : Byte) (s : State) : (start (.nib r n) b s).dreg = s.dreg := rfl
@[simp] theorem start_nib_initDoneQ (r : Bool) (n : NibSrc) (b : Byte) (s : State) : (start (.nib r n) b s).initDoneQ = s.initDoneQ := rfl
@[simp] theorem start_nib_enQ (r : Bool) (n : NibSrc) (b : Byte) (s : State) : (start (.nib r n) b s).enQ = false := rfl
@[simp] theorem start_nib_rsQ (r : Bool) (n : NibSrc) (b : Byte) (s : State) : (start (.nib r n) b s).rsQ = r := rfl
@[simp] theorem start_nib_dQ (r : Bool) (n : NibSrc) (b : Byte) (s : State) : (start (.nib r n) b s).dQ = nibValue n b := rfl
@[simp] theorem start_nib_inputs (r : Bool) (n : NibSrc) (b : Byte) (s : State) : (start (.nib r n) b s).inputs = s.inputs := rfl

/-! Start of a WAIT (R135). -/

@[simp] theorem start_wait_cfg (k : Delay) (b : Byte) (s : State) : (start (.wait k) b s).cfg = s.cfg := rfl
@[simp] theorem start_wait_phase (k : Delay) (b : Byte) (s : State) : (start (.wait k) b s).phase = s.phase := rfl
@[simp] theorem start_wait_seq (k : Delay) (b : Byte) (s : State) : (start (.wait k) b s).seq = s.seq := rfl
@[simp] theorem start_wait_upc (k : Delay) (b : Byte) (s : State) : (start (.wait k) b s).upc = s.upc := rfl
@[simp] theorem start_wait_sub (k : Delay) (b : Byte) (s : State) : (start (.wait k) b s).sub = .wt := rfl
@[simp] theorem start_wait_cnt (k : Delay) (b : Byte) (s : State) : (start (.wait k) b s).cnt = s.cfg.count k := rfl
@[simp] theorem start_wait_dreg (k : Delay) (b : Byte) (s : State) : (start (.wait k) b s).dreg = s.dreg := rfl
@[simp] theorem start_wait_initDoneQ (k : Delay) (b : Byte) (s : State) : (start (.wait k) b s).initDoneQ = s.initDoneQ := rfl
@[simp] theorem start_wait_enQ (k : Delay) (b : Byte) (s : State) : (start (.wait k) b s).enQ = s.enQ := rfl
@[simp] theorem start_wait_rsQ (k : Delay) (b : Byte) (s : State) : (start (.wait k) b s).rsQ = s.rsQ := rfl
@[simp] theorem start_wait_dQ (k : Delay) (b : Byte) (s : State) : (start (.wait k) b s).dQ = s.dQ := rfl
@[simp] theorem start_wait_inputs (k : Delay) (b : Byte) (s : State) : (start (.wait k) b s).inputs = s.inputs := rfl

/-! The reset state (R35). -/

@[simp] theorem resetOf_cfg (c : Config) : (State.resetOf c).cfg = c := rfl
@[simp] theorem resetOf_phase (c : Config) : (State.resetOf c).phase = .run := rfl
@[simp] theorem resetOf_seq (c : Config) : (State.resetOf c).seq = .init := rfl
@[simp] theorem resetOf_upc (c : Config) : (State.resetOf c).upc = 0#5 := rfl
@[simp] theorem resetOf_sub (c : Config) : (State.resetOf c).sub = .wt := rfl
@[simp] theorem resetOf_cnt (c : Config) : (State.resetOf c).cnt = c.nPowerup := rfl
@[simp] theorem resetOf_dreg (c : Config) : (State.resetOf c).dreg = 0x00#8 := rfl
@[simp] theorem resetOf_initDoneQ (c : Config) : (State.resetOf c).initDoneQ = false := rfl
@[simp] theorem resetOf_enQ (c : Config) : (State.resetOf c).enQ = false := rfl
@[simp] theorem resetOf_rsQ (c : Config) : (State.resetOf c).rsQ = false := rfl
@[simp] theorem resetOf_dQ (c : Config) : (State.resetOf c).dQ = 0x0#4 := rfl
@[simp] theorem resetOf_inputs (c : Config) : (State.resetOf c).inputs = [] := rfl

/-! What every Start leaves unchanged (R130, R135). -/

@[simp] theorem start_cfg (u : MicroOp) (b : Byte) (s : State) : (start u b s).cfg = s.cfg := by
  cases u <;> rfl
@[simp] theorem start_phase (u : MicroOp) (b : Byte) (s : State) : (start u b s).phase = s.phase := by
  cases u <;> rfl
@[simp] theorem start_seq (u : MicroOp) (b : Byte) (s : State) : (start u b s).seq = s.seq := by
  cases u <;> rfl
@[simp] theorem start_upc (u : MicroOp) (b : Byte) (s : State) : (start u b s).upc = s.upc := by
  cases u <;> rfl
@[simp] theorem start_dreg (u : MicroOp) (b : Byte) (s : State) : (start u b s).dreg = s.dreg := by
  cases u <;> rfl
@[simp] theorem start_initDoneQ (u : MicroOp) (b : Byte) (s : State) : (start u b s).initDoneQ = s.initDoneQ := by
  cases u <;> rfl
@[simp] theorem start_inputs (u : MicroOp) (b : Byte) (s : State) : (start u b s).inputs = s.inputs := by
  cases u <;> rfl

/-! NEXT (R107). -/

@[simp] theorem nextArm_cfg (u : MicroOp) (s : State) : (nextArm u s).cfg = s.cfg := by
  cases u <;> rfl
@[simp] theorem nextArm_phase (u : MicroOp) (s : State) : (nextArm u s).phase = s.phase := by
  cases u <;> rfl
@[simp] theorem nextArm_seq (u : MicroOp) (s : State) : (nextArm u s).seq = s.seq := by
  cases u <;> rfl
@[simp] theorem nextArm_upc (u : MicroOp) (s : State) : (nextArm u s).upc = s.upc + 1 := by
  cases u <;> rfl
@[simp] theorem nextArm_dreg (u : MicroOp) (s : State) : (nextArm u s).dreg = s.dreg := by
  cases u <;> rfl
@[simp] theorem nextArm_initDoneQ (u : MicroOp) (s : State) : (nextArm u s).initDoneQ = s.initDoneQ := by
  cases u <;> rfl
@[simp] theorem nextArm_inputs (u : MicroOp) (s : State) : (nextArm u s).inputs = s.inputs := by
  cases u <;> rfl

end Sys2Proof.Laws
end

