-- ==== Sys2Proof/Laws/Ops.lean ====
section
/-! SUPPORT. For each shared operation of a clock edge, once, everything it can do; later proofs cite these and do not unfold the
operations. -/

namespace Sys2Proof.Laws

open Sys2Proof.Machine

/-! The ports. -/

theorem portAction_reset_iff (p : HostInput) : portAction p = .reset ↔ p.rst = true := by
  unfold portAction
  split <;> simp_all
  split <;> simp

theorem portAction_request {p : HostInput} {i : Instr} (h : portAction p = .request i) :
    p.rst = false ∧ p.reqValid = true ∧ i = decodeFields p.reqOp p.reqData := by
  unfold portAction at h
  split at h
  · cases h
  · split at h
    · cases h; exact ⟨by simpa using ‹¬ p.rst = true›, ‹_›, rfl⟩
    · cases h

theorem portAction_quiet {p : HostInput} (h : portAction p = .quiet) : p.rst = false ∧ p.reqValid = false := by
  unfold portAction at h
  split at h
  · cases h
  · split at h
    · cases h
    · simp_all

theorem portAction_of_valid {p : HostInput} (hr : p.rst = false) (hv : p.reqValid = true) :
    portAction p = .request (decodeFields p.reqOp p.reqData) := by
  simp [portAction, hr, hv]

theorem portAction_of_quiet {p : HostInput} (hr : p.rst = false) (hv : p.reqValid = false) : portAction p = .quiet := by
  simp [portAction, hr, hv]

@[simp] theorem portAction_present (i : Instr) : portAction (HostInput.present i) = .request i := by
  cases i <;> rfl

/-! Legality. -/

theorem clocked_next {f : State → State} {s t : State} (h : clocked f s = .next t) : s.cfg.Legal ∧ t = f s := by
  unfold clocked at h
  split at h
  · cases h; exact ⟨‹_›, rfl⟩
  · cases h

theorem clocked_legal {f : State → State} {s : State} (h : s.cfg.Legal) : clocked f s = .next (f s) := by
  unfold clocked
  rw [if_pos h]

theorem clocked_illegal {f : State → State} {s : State} (h : ¬ s.cfg.Legal) :
    clocked f s = .refused .illegalConfiguration := by
  unfold clocked
  rw [if_neg h]

/-- Every request is one clocked edge with its own program and byte. -/
theorem exec_eq (i : Instr) (s : State) : exec i s = clocked (presentEdge (seqOf i) i.data) s := by
  cases i <;> rfl

/-- The legal bounds of a count named by a delay or a sub-phase. -/
theorem legal_count {c : Config} (h : c.Legal) (k : Delay) : 1 ≤ c.count k ∧ c.count k ≤ 2 ^ c.cntW - 1 := by
  cases k <;> exact h _ (by simp [Config.counts, Config.count])

theorem legal_su {c : Config} (h : c.Legal) : 1 ≤ c.nSu ∧ c.nSu ≤ 2 ^ c.cntW - 1 := h _ (by simp [Config.counts])

theorem legal_eh {c : Config} (h : c.Legal) : 1 ≤ c.nEh ∧ c.nEh ≤ 2 ^ c.cntW - 1 := h _ (by simp [Config.counts])

theorem legal_el {c : Config} (h : c.Legal) : 1 ≤ c.nEl ∧ c.nEl ≤ 2 ^ c.cntW - 1 := h _ (by simp [Config.counts])

/-! The arms. -/

/-- ACCEPT of a request: its program's entry 0, a NIB, is started with the new `dreg` (R102). -/
theorem acceptArm_eq {i : Instr} {r : Bool} {n : NibSrc} (h : uop (seqOf i) 0 = some (.nib r n)) (b : Byte) (s : State) :
    acceptArm (seqOf i) b s = { s with
      seq := seqOf i, dreg := b, phase := .run, upc := 0#5, rsQ := r, dQ := nibValue n b, enQ := false, sub := .su,
      cnt := s.cfg.nSu } := by
  simp [acceptArm, h, start]

/-- What the end of a micro-op can do (R107, R108). -/
theorem endMicroOp_cases (s : State) :
    (∃ u, uop s.seq (s.upc.toNat + 1) = some u ∧ endMicroOp s = nextArm u s) ∨
      (len s.seq ≤ s.upc.toNat + 1 ∧ endMicroOp s = finishArm s) := by
  unfold endMicroOp
  cases h : uop s.seq (s.upc.toNat + 1) with
  | some u => exact .inl ⟨u, rfl, rfl⟩
  | none => exact .inr ⟨(uop_eq_none_iff _ _).1 h, rfl⟩

theorem endMicroOp_next {s : State} {u : MicroOp} (h : uop s.seq (s.upc.toNat + 1) = some u) :
    endMicroOp s = nextArm u s := by
  simp [endMicroOp, h]

theorem endMicroOp_finish {s : State} (h : len s.seq ≤ s.upc.toNat + 1) : endMicroOp s = finishArm s := by
  simp [endMicroOp, (uop_eq_none_iff _ _).2 h]

/-- What the RUN branch can do, with the condition of each arm (R104 to R108). -/
theorem advance_cases (s : State) :
    (1 < s.cnt ∧ advance s = countArm s) ∨
    (s.cnt ≤ 1 ∧ s.sub = .su ∧ advance s = riseArm s) ∨
    (s.cnt ≤ 1 ∧ s.sub = .eh ∧ advance s = fallArm s) ∨
    (s.cnt ≤ 1 ∧ (s.sub = .el ∨ s.sub = .wt) ∧ advance s = endMicroOp s) := by
  unfold advance
  split
  · exact .inl ⟨‹_›, rfl⟩
  · have hc : s.cnt ≤ 1 := by omega
    cases hs : s.sub with
    | su => exact .inr (.inl ⟨hc, rfl, rfl⟩)
    | eh => exact .inr (.inr (.inl ⟨hc, rfl, rfl⟩))
    | el => exact .inr (.inr (.inr ⟨hc, .inl rfl, rfl⟩))
    | wt => exact .inr (.inr (.inr ⟨hc, .inr rfl, rfl⟩))

theorem advance_count {s : State} (h : 1 < s.cnt) : advance s = countArm s := by
  simp [advance, h]

theorem advance_rise {s : State} (h : s.cnt = 1) (hs : s.sub = .su) : advance s = riseArm s := by
  simp [advance, h, hs]

theorem advance_fall {s : State} (h : s.cnt = 1) (hs : s.sub = .eh) : advance s = fallArm s := by
  simp [advance, h, hs]

theorem advance_end {s : State} (h : s.cnt = 1) (hs : s.sub = .el ∨ s.sub = .wt) : advance s = endMicroOp s := by
  rcases hs with hs | hs <;> simp [advance, h, hs]

/-- The RUN branch writes neither the configuration, nor `seq`, nor `dreg`, nor the coming inputs. -/
theorem advance_keeps (s : State) :
    (advance s).cfg = s.cfg ∧ (advance s).seq = s.seq ∧ (advance s).dreg = s.dreg ∧ (advance s).inputs = s.inputs := by
  obtain ⟨-, h⟩ | ⟨-, -, h⟩ | ⟨-, -, h⟩ | ⟨-, -, h⟩ := advance_cases s
  · simp [h]
  · simp [h]
  · simp [h]
  · obtain ⟨u, -, h'⟩ | ⟨-, h'⟩ := endMicroOp_cases s <;> simp [h, h']

/-! The step. -/

theorem step_reset {s : State} (hl : s.cfg.Legal) (h : s.sample.rst = true) : step s = .next (resetArm s.popInput) := by
  simp [step, (portAction_reset_iff _).2 h, clocked_legal (s := s.popInput) hl]

theorem step_request {s : State} {i : Instr} (h : portAction s.sample = .request i) : step s = exec i s.popInput := by
  simp [step, h]

theorem exec_idle {i : Instr} {s : State} (hl : s.cfg.Legal) (hp : s.phase = .idle) :
    exec i s = .next (acceptArm (seqOf i) i.data s) := by
  simp [exec_eq, clocked_legal hl, presentEdge, hp]

theorem exec_run {i : Instr} {s : State} (hl : s.cfg.Legal) (hp : s.phase = .run) : exec i s = .next (advance s) := by
  simp [exec_eq, clocked_legal hl, presentEdge, hp]

theorem exec_illegal {i : Instr} {s : State} (hl : ¬ s.cfg.Legal) : exec i s = .refused .illegalConfiguration := by
  simp [exec_eq, clocked_illegal hl]

theorem step_illegal {s : State} (hl : ¬ s.cfg.Legal) : step s = .refused .illegalConfiguration := by
  unfold step
  split
  · exact clocked_illegal hl
  · exact exec_illegal hl
  · exact clocked_illegal hl

theorem step_accept {s : State} {i : Instr} (hl : s.cfg.Legal) (h : portAction s.sample = .request i) (hp : s.phase = .idle) :
    step s = .next (acceptArm (seqOf i) i.data s.popInput) := by
  rw [step_request h]
  exact exec_idle (s := s.popInput) hl hp

theorem step_hold {s : State} (hl : s.cfg.Legal) (h : portAction s.sample = .quiet) (hp : s.phase = .idle) :
    step s = .next s.popInput := by
  simp [step, h, clocked_legal (s := s.popInput) hl, quietEdge, hp, holdArm]

/-- In RUN and without reset the edge is the running program's, whatever is presented (R100). -/
theorem step_run {s : State} (hl : s.cfg.Legal) (h : s.sample.rst = false) (hp : s.phase = .run) :
    step s = .next (advance s.popInput) := by
  unfold step
  split
  · rename_i hr
    rw [(portAction_reset_iff _).1 hr] at h
    cases h
  · exact exec_run hl hp
  · simp [clocked_legal (s := s.popInput) hl, quietEdge, hp]

/-- What a step can do: RESET, ACCEPT, HOLD, or an arm of the running program (R100). -/
theorem step_cases {s t : State} (h : step s = .next t) :
    s.cfg.Legal ∧
      ((s.sample.rst = true ∧ t = resetArm s.popInput) ∨
       (s.sample.rst = false ∧ s.phase = .idle ∧
         ∃ i, portAction s.sample = .request i ∧ t = acceptArm (seqOf i) i.data s.popInput) ∨
       (s.sample.rst = false ∧ s.phase = .idle ∧ portAction s.sample = .quiet ∧ t = s.popInput) ∨
       (s.sample.rst = false ∧ s.phase = .run ∧ t = advance s.popInput)) := by
  by_cases hl : s.cfg.Legal
  · refine ⟨hl, ?_⟩
    cases hr : s.sample.rst with
    | true =>
      rw [step_reset hl hr] at h
      cases h
      exact .inl ⟨rfl, rfl⟩
    | false =>
      right
      cases hp : s.phase with
      | run =>
        rw [step_run hl hr hp] at h
        cases h
        exact .inr (.inr ⟨rfl, rfl, rfl⟩)
      | idle =>
        cases ha : portAction s.sample with
        | reset =>
          rw [(portAction_reset_iff _).1 ha] at hr
          cases hr
        | request i =>
          rw [step_accept hl ha hp] at h
          cases h
          exact .inl ⟨rfl, rfl, i, rfl, rfl⟩
        | quiet =>
          rw [step_hold hl ha hp] at h
          cases h
          exact .inr (.inl ⟨rfl, rfl, rfl, rfl⟩)
  · rw [step_illegal hl] at h
    cases h

/-- A legal configuration steps from every state (R100, R200). -/
theorem step_total {s : State} (hl : s.cfg.Legal) : ∃ t, step s = .next t := by
  cases hr : s.sample.rst with
  | true => exact ⟨_, step_reset hl hr⟩
  | false =>
    cases hp : s.phase with
    | run => exact ⟨_, step_run hl hr hp⟩
    | idle =>
      cases ha : portAction s.sample with
      | reset =>
        rw [(portAction_reset_iff _).1 ha] at hr
        cases hr
      | request i => exact ⟨_, step_accept hl ha hp⟩
      | quiet => exact ⟨_, step_hold hl ha hp⟩

/-- A step takes one input sample and keeps the configuration (R33). -/
theorem step_frame {s t : State} (h : step s = .next t) : t.cfg = s.cfg ∧ t.inputs = s.inputs.tail := by
  obtain ⟨-, ⟨-, rfl⟩ | ⟨-, -, i, -, rfl⟩ | ⟨-, -, -, rfl⟩ | ⟨-, -, rfl⟩⟩ := step_cases h
  · simp
  · obtain ⟨r, n, hu⟩ := uop_zero_request i
    simp [acceptArm_eq hu]
  · simp
  · obtain ⟨h1, -, -, h4⟩ := advance_keeps s.popInput
    simp [h1, h4]

end Sys2Proof.Laws
end

