-- ==== Sys2Proof/Laws/Run.lean ====
section
/-! SUPPORT. Runs of several edges: how `edges`, `traceFrom` and `accepted` unfold by one edge and compose, and how the coming inputs
shift along a run. -/

namespace Sys2Proof.Laws

open Sys2Proof.Machine

@[simp] theorem edges_zero (s : State) : edges 0 s = .next s := rfl

theorem edges_succ {s t : State} (h : step s = .next t) (k : Nat) : edges (k + 1) s = edges k t := by
  simp [edges, h]

theorem edges_one (s : State) : edges 1 s = step s := by
  simp only [edges]
  cases step s <;> rfl

theorem run_succ (M : Host.Core) (k : Nat) (s : M.State) :
    Host.Core.run M (k + 1) s =
      match M.step s with
      | .next t => Host.Core.run M k t
      | .fault r => .fault r
      | .refused r => .refused r := rfl

/-- `edges` is the host's `run` of this machine. -/
theorem edges_eq_run (k : Nat) (s : State) : edges k s = Host.Core.run Sys2Proof.core k s := by
  induction k generalizing s with
  | zero => rfl
  | succ k ih =>
    refine Eq.trans ?_ (run_succ Sys2Proof.core k s).symm
    have hc : Sys2Proof.core.step s = step s := rfl
    rw [hc]
    simp only [edges]
    cases step s with
    | next t => exact ih t
    | fault r => rfl
    | refused r => rfl

/-- Runs compose. -/
theorem edges_add {a : Nat} {s t : State} (h : edges a s = .next t) (b : Nat) : edges (a + b) s = edges b t := by
  induction a generalizing s with
  | zero =>
    cases h
    rw [Nat.zero_add]
  | succ a ih =>
    simp only [edges] at h
    cases hs : step s with
    | next u =>
      rw [hs] at h
      rw [Nat.add_right_comm, edges_succ hs]
      exact ih h
    | fault r => rw [hs] at h; cases h
    | refused r => rw [hs] at h; cases h

/-- The last edge of a run. -/
theorem edges_snoc {a : Nat} {s t : State} (h : edges a s = .next t) : edges (a + 1) s = step t := by
  rw [edges_add h, edges_one]

/-- Along a run the configuration stays and one input sample is taken at each edge. -/
theorem edges_frame {k : Nat} {s t : State} (h : edges k s = .next t) : t.cfg = s.cfg ∧ t.inputs = s.inputs.drop k := by
  induction k generalizing s with
  | zero => cases h; simp
  | succ k ih =>
    simp only [edges] at h
    cases hs : step s with
    | next u =>
      rw [hs] at h
      obtain ⟨h1, h2⟩ := ih h
      obtain ⟨h3, h4⟩ := step_frame hs
      exact ⟨h1.trans h3, by rw [h2, h4, List.drop_tail]⟩
    | fault r => rw [hs] at h; cases h
    | refused r => rw [hs] at h; cases h

theorem edges_total {s : State} (hl : s.cfg.Legal) (k : Nat) : ∃ t, edges k s = .next t := by
  induction k generalizing s with
  | zero => exact ⟨s, rfl⟩
  | succ k ih =>
    obtain ⟨u, hu⟩ := step_total hl
    rw [edges_succ hu]
    exact ih (by rw [(step_frame hu).1]; exact hl)

/-! The coming inputs. -/

theorem inputAt_of_drop {s t : State} {k : Nat} (h : t.inputs = s.inputs.drop k) (j : Nat) :
    t.inputAt j = s.inputAt (k + j) := by
  simp [State.inputAt, h, List.getD_eq_getElem?_getD]

theorem inputAt_edges {k : Nat} {s t : State} (h : edges k s = .next t) (j : Nat) : t.inputAt j = s.inputAt (k + j) :=
  inputAt_of_drop (edges_frame h).2 j

/-- The absence of resets, carried along a run. -/
theorem noReset_edges {k a b : Nat} {s t : State} (h : edges k s = .next t) (hn : s.NoReset (k + a) (k + b)) :
    t.NoReset a b := by
  intro j h1 h2
  rw [inputAt_edges h]
  exact hn (k + j) (by omega) (by omega)

theorem noReset_mono {s : State} {a b c d : Nat} (h : s.NoReset a d) (h1 : a ≤ b) (h2 : c ≤ d) : s.NoReset b c :=
  fun j hj1 hj2 => h j (by omega) (by omega)

/-- The next edge of a run that has reached a running state, where no reset is sampled. -/
theorem edges_snoc_run {k : Nat} {s t : State} (h : edges k s = .next t) (hl : s.cfg.Legal) (hp : t.phase = .run)
    (hr : (s.inputAt k).rst = false) : edges (k + 1) s = .next (advance t.popInput) := by
  rw [edges_snoc h]
  have hc : t.cfg.Legal := by rw [(edges_frame h).1]; exact hl
  have h0 : t.sample = s.inputAt k := inputAt_edges h 0
  exact step_run hc (by rw [h0]; exact hr) hp

/-! The trace. -/

@[simp] theorem traceFrom_zero (i : Nat) (s : State) : traceFrom i 0 s = [] := rfl

theorem traceFrom_succ {s t : State} (h : step s = .next t) (i k : Nat) :
    traceFrom i (k + 1) s = (transferAt s t).toList.map (fun x => (i, x)) ++ traceFrom (i + 1) k t := by
  simp [traceFrom, h]

/-- Traces compose. -/
theorem traceFrom_add {a : Nat} {s t : State} (h : edges a s = .next t) (i b : Nat) :
    traceFrom i (a + b) s = traceFrom i a s ++ traceFrom (i + a) b t := by
  induction a generalizing s i with
  | zero => cases h; simp
  | succ a ih =>
    simp only [edges] at h
    cases hs : step s with
    | next u =>
      rw [hs] at h
      rw [Nat.add_right_comm a 1 b, traceFrom_succ hs, traceFrom_succ hs, ih h, List.append_assoc,
        Nat.add_assoc i 1 a, Nat.add_comm 1 a]
    | fault r => rw [hs] at h; cases h
    | refused r => rw [hs] at h; cases h

@[simp] theorem accepted_zero (s : State) : accepted 0 s = [] := rfl

theorem accepted_succ {s t : State} (h : step s = .next t) (k : Nat) :
    accepted (k + 1) s = (acceptedAt s).toList ++ accepted k t := by
  simp [accepted, h]

theorem accepted_add {a : Nat} {s t : State} (h : edges a s = .next t) (b : Nat) :
    accepted (a + b) s = accepted a s ++ accepted b t := by
  induction a generalizing s with
  | zero => cases h; simp
  | succ a ih =>
    simp only [edges] at h
    cases hs : step s with
    | next u =>
      rw [hs] at h
      rw [Nat.add_right_comm a 1 b, accepted_succ hs, accepted_succ hs, ih h, List.append_assoc]
    | fault r => rw [hs] at h; cases h
    | refused r => rw [hs] at h; cases h

/-- No transfer where EN is low before the edge. -/
theorem transferAt_of_low {s t : State} (h : s.enQ = false) : transferAt s t = none := by
  simp [transferAt, h]

/-- No transfer where EN is high after the edge. -/
theorem transferAt_of_high {s t : State} (h : t.enQ = true) : transferAt s t = none := by
  simp [transferAt, h]

/-- Nothing is accepted while a program runs. -/
theorem acceptedAt_run {s : State} (h : s.phase = .run) : acceptedAt s = none := by
  unfold acceptedAt
  split <;> simp [h]

/-- A request presented in IDLE is accepted. -/
theorem acceptedAt_idle {s : State} {i : Instr} (h : s.phase = .idle) (hp : portAction s.sample = .request i) :
    acceptedAt s = some i := by
  simp [acceptedAt, hp, h]

end Sys2Proof.Laws
end

