-- ==== Sys2Proof/Laws/EagerHost.lean ====
section
/-! SUPPORT. The eager host of R82: what it presents and what is left after an edge, and that its closed loop is a run of the step under
the inputs it makes. -/

namespace Sys2Proof.Laws

open Sys2Proof.Machine

@[simp] theorem eagerSample_nil : eagerSample [] = HostInput.quiet := rfl
@[simp] theorem eagerSample_request (i : Instr) (as : List HostAction) : eagerSample (.request i :: as) = HostInput.present i := rfl
@[simp] theorem eagerSample_reset_now (e : Nat) (as : List HostAction) : eagerSample (.reset ⟨0, e⟩ :: as) = HostInput.reset := rfl
@[simp] theorem eagerSample_reset_later (w e : Nat) (as : List HostAction) :
    eagerSample (.reset ⟨w + 1, e⟩ :: as) = HostInput.quiet := rfl

@[simp] theorem eagerRest_nil (p : Phase) : eagerRest p [] = [] := rfl
@[simp] theorem eagerRest_request_idle (i : Instr) (as : List HostAction) : eagerRest .idle (.request i :: as) = as := rfl
@[simp] theorem eagerRest_request_run (i : Instr) (as : List HostAction) :
    eagerRest .run (.request i :: as) = .request i :: as := rfl
@[simp] theorem eagerRest_reset_last (p : Phase) (as : List HostAction) : eagerRest p (.reset ⟨0, 0⟩ :: as) = as := rfl
@[simp] theorem eagerRest_reset_more (p : Phase) (e : Nat) (as : List HostAction) :
    eagerRest p (.reset ⟨0, e + 1⟩ :: as) = .reset ⟨0, e⟩ :: as := rfl
@[simp] theorem eagerRest_reset_wait (p : Phase) (w e : Nat) (as : List HostAction) :
    eagerRest p (.reset ⟨w + 1, e⟩ :: as) = .reset ⟨w, e⟩ :: as := rfl

/-- The running arms do not read the coming inputs. -/
theorem advance_inputs (s : State) (ins : List HostInput) : advance { s with inputs := ins } = { advance s with inputs := ins } := by
  obtain ⟨hc, e⟩ | ⟨hc, hs, e⟩ | ⟨hc, hs, e⟩ | ⟨hc, hs, e⟩ := advance_cases s
  · rw [e, advance_count (s := { s with inputs := ins }) hc]; rfl
  · rw [e]; simp [advance, show ¬ 1 < s.cnt by omega, hs, riseArm]
  · rw [e]; simp [advance, show ¬ 1 < s.cnt by omega, hs, fallArm]
  · rw [e]
    have h : advance { s with inputs := ins } = endMicroOp { s with inputs := ins } := by
      rcases hs with hs | hs <;> simp [advance, show ¬ 1 < s.cnt by omega, hs]
    rw [h]
    obtain ⟨u, hu, e'⟩ | ⟨hn, e'⟩ := endMicroOp_cases s
    · rw [e', endMicroOp_next (s := { s with inputs := ins }) hu]
      cases u <;> rfl
    · rw [e', endMicroOp_finish (s := { s with inputs := ins }) hn]; rfl

/-- The step reads the sample of its own edge and no later one. -/
theorem step_inputs {s t : State} (ins : List HostInput) (hs : ({ s with inputs := ins } : State).sample = s.sample)
    (h : step s = .next t) : step { s with inputs := ins } = .next { t with inputs := ins.tail } := by
  obtain ⟨hl, ⟨hr, rfl⟩ | ⟨hr, hp, i, ha, rfl⟩ | ⟨hr, hp, ha, rfl⟩ | ⟨hr, hp, rfl⟩⟩ := step_cases h
  · rw [step_reset (s := { s with inputs := ins }) hl (by rw [hs]; exact hr)]; rfl
  · rw [step_accept (s := { s with inputs := ins }) hl (by rw [hs]; exact ha) hp]
    obtain ⟨r, n, hu⟩ := uop_zero_request i
    rw [acceptArm_eq hu, acceptArm_eq hu]; rfl
  · rw [step_hold (s := { s with inputs := ins }) hl (by rw [hs]; exact ha) hp]; rfl
  · rw [step_run (s := { s with inputs := ins }) hl (by rw [hs]; exact hr) hp]
    have h' : ({ s with inputs := ins } : State).popInput = { s.popInput with inputs := ins.tail } := rfl
    rw [h', advance_inputs]

/-- What the eager host presents does not depend on inputs listed before. -/
theorem eagerInputs_inputs (k : Nat) (acts : List HostAction) (s : State) (ins : List HostInput) :
    eagerInputs k acts { s with inputs := ins } = eagerInputs k acts s := by
  cases k <;> rfl

/-- One edge of a TC on the eager host: the host goes on with what is left. -/
theorem step_eagerStart {k : Nat} {acts : List HostAction} {s t : State}
    (h : step { s with inputs := [eagerSample acts] } = .next t) :
    step (eagerStart (k + 1) acts s) = .next (eagerStart k (eagerRest s.phase acts) t) := by
  have e : eagerStart (k + 1) acts s =
      { ({ s with inputs := [eagerSample acts] } : State) with
        inputs := eagerSample acts :: eagerInputs k (eagerRest s.phase acts) t } := by
    unfold eagerStart
    simp [eagerInputs, h]
  rw [e]
  exact step_inputs (s := { s with inputs := [eagerSample acts] }) _ rfl h

/-- The end state is reached at the first cycle with `ready` = 1 and nothing left to do (log 21). -/
theorem endState_done {k : Nat} {s : State} (h : ready s = true) : endState k [] s = some s := by
  cases k <;> simp [endState, h]

theorem endState_step {k : Nat} {acts : List HostAction} {s t : State} (hn : acts ≠ [] ∨ ready s = false)
    (h : step { s with inputs := [eagerSample acts] } = .next t) :
    endState (k + 1) acts s = endState k (eagerRest s.phase acts) t := by
  have hg : (acts.isEmpty && ready s) = false := by
    rcases hn with hn | hn
    · cases acts <;> simp_all
    · simp [hn]
  simp [endState, hg, h]

end Sys2Proof.Laws
end

