-- ==== Sys2Proof/Laws/Invariant.lean ====
section
/-! SUPPORT. Consequences of the invariants of R37 that the proofs about single edges use. -/

namespace Sys2Proof.Laws

open Sys2Proof.Machine

/-- EN is low in IDLE and outside the enable-high sub-phase (R37 item 1). -/
theorem inv_enQ_low {s : State} (hi : s.Inv) (h : s.phase = .idle ∨ s.sub ≠ .eh) : s.enQ = false := by
  cases hq : s.enQ with
  | false => rfl
  | true =>
    obtain ⟨h1, h2⟩ := hi.en_iff.1 hq
    rcases h with h | h
    · rw [h] at h1; cases h1
    · exact absurd h2 h

/-- Where no micro-op follows, the current one is the last of its program and a WAIT (R108). -/
theorem inv_last {s : State} (hi : s.Inv) (hp : s.phase = .run) (hn : len s.seq ≤ s.upc.toNat + 1) :
    s.upc.toNat + 1 = len s.seq ∧ s.sub = .wt := by
  have hb := hi.run_bounds hp
  have hn' : s.upc.toNat + 1 = len s.seq := by omega
  refine ⟨hn', ?_⟩
  obtain ⟨k, hk⟩ := uop_last s.seq
  by_contra hne
  obtain ⟨r, n, hu⟩ := hi.nib_sub hne
  rw [← hn', Nat.add_sub_cancel, hu] at hk
  cases hk

/-- NEXT's `upc + 1` does not wrap (R115). -/
theorem upc_succ {s : State} {u : MicroOp} (h : uop s.seq (s.upc.toNat + 1) = some u) :
    (s.upc + 1).toNat = s.upc.toNat + 1 := by
  have h1 := uop_lt h
  have h2 := len_le s.seq
  rw [BitVec.toNat_add]
  exact Nat.mod_eq_of_lt (show s.upc.toNat + 1 < 32 by omega)

/-- The invariants do not speak of the coming inputs. -/
theorem inv_inputs {s : State} (hi : s.Inv) (ins : List HostInput) : { s with inputs := ins }.Inv :=
  ⟨hi.1, hi.2, hi.3, hi.4, hi.5, hi.6, hi.7⟩

end Sys2Proof.Laws
end

