-- ==== Sys2Proof/Laws/PerInstr.lean ====
section
/-! SUPPORT. Statements made per instruction. TableMatch: the encoding of a request matches the row of the opcode table that bears its
mnemonic, and no other row. -/

namespace Sys2Proof.Laws.TableMatch

/-- The rows that match the encoding of `i` are the one row named by its mnemonic. -/
def Statement (i : Instr) : Prop :=
  (opcodeTable.filter (fun r => encode i &&& r.mask == r.pattern)).map (fun r => r.mnemonic) = [mnemonicOf i]

/-- The op field decides the match with a row of mask 0x300. -/
theorem op_decides (op c : BitVec 2) (b : Byte) : ((op ++ b) &&& 0x300#10 == c ++ 0x00#8) = (op == c) := by
  have h : (op ++ b) &&& 0x300#10 = op ++ 0x00#8 := by
    rw [show (0x300#10 : ReqWord) = 0x3#2 ++ 0x00#8 from rfl, BitVec.and_append, show op &&& 0x3#2 = op from BitVec.and_allOnes]
    simp
  rw [h, Bool.eq_iff_iff]
  simp only [beq_iff_eq]
  constructor
  · intro e
    have e' := congrArg (fun w : BitVec 10 => w.extractLsb' 8 2) e
    clear e h
    revert e' op c
    decide
  · rintro rfl
    rfl

theorem filter_op (op : BitVec 2) (b : Byte) :
    opcodeTable.filter (fun r => (op ++ b) &&& r.mask == r.pattern) =
      opcodeTable.filter (fun r => op == r.pattern.extractLsb' 8 2) := by
  have h0 := op_decides op 0b00#2 b
  have h1 := op_decides op 0b01#2 b
  have h2 := op_decides op 0b10#2 b
  have h3 := op_decides op 0b11#2 b
  simp only [show (0b00#2 ++ 0x00#8 : ReqWord) = 0x000#10 from rfl] at h0
  simp only [show (0b01#2 ++ 0x00#8 : ReqWord) = 0x100#10 from rfl] at h1
  simp only [show (0b10#2 ++ 0x00#8 : ReqWord) = 0x200#10 from rfl] at h2
  simp only [show (0b11#2 ++ 0x00#8 : ReqWord) = 0x300#10 from rfl] at h3
  unfold opcodeTable
  simp only [List.filter_cons, h0, h1, h2, h3]
  rfl

theorem cmd (b : Byte) : Statement (.cmd b) := by
  unfold Statement encode
  rw [filter_op]
  rfl

theorem char (b : Byte) : Statement (.char b) := by
  unfold Statement encode
  rw [filter_op]
  rfl

theorem clear (x : Byte) : Statement (.clear x) := by
  unfold Statement encode
  rw [filter_op]
  rfl

theorem home (x : Byte) : Statement (.home x) := by
  unfold Statement encode
  rw [filter_op]
  rfl

end Sys2Proof.Laws.TableMatch
end

