-- ==== Sys2Proof/Tests/Slice0.lean ====
section
/-! SUPPORT. Tests on fixed values, each expected result taken from the vectors of 95_test_vectors.md or from the rule named, and a
witness for every statement of Certificates/Slice0/Obligations.lean that has hypotheses. -/

namespace Sys2Proof.Tests

open Sys2Proof.Machine

/-- The configuration TOY of 95_test_vectors.md (`CLK_HZ` and `CNT_W` as the defaults). -/
def toy : Config :=
  { Config.default with
    nPowerup := 10, nRst1 := 7, nRst2 := 3, nRst3 := 3, nBus4 := 7, nSu := 1, nEh := 2, nEl := 2,
    nCmd := 3, nData := 4, nClear := 5, nHome := 6 }

/-- The least legal configuration: every count 1 (R8; V-NIB-3). -/
def least : Config :=
  { Config.default with
    nPowerup := 1, nRst1 := 1, nRst2 := 1, nRst3 := 1, nBus4 := 1, nSu := 1, nEh := 1, nEl := 1,
    nCmd := 1, nData := 1, nClear := 1, nHome := 1 }

/-- A register row of 95_test_vectors.md, in its column order, with the coming inputs. -/
def row (p : Phase) (q : Seq) (i : BitVec 5) (u : SubPhase) (n : Nat) (b : Byte) (done en rs : Bool) (d : Nibble)
    (ins : List HostInput) : State :=
  ⟨toy, p, q, i, u, n, b, done, en, rs, d, ins⟩

/-- BOOTED of 95_test_vectors.md, with the coming inputs. -/
def booted (ins : List HostInput) : State := row .idle .init 22#5 .wt 1 0x00#8 true false false 0x2#4 ins

/-- Whether the outcome is the next state `t`. -/
def nextIs (o : Host.Outcome State Fault Refusal) (t : State) : Bool :=
  match o with
  | .next s => s == t
  | .fault _ => false
  | .refused _ => false

/-- Whether the outcome is the refusal of the configuration. -/
def isRefused (o : Host.Outcome State Fault Refusal) : Bool :=
  match o with
  | .next _ => false
  | .fault _ => false
  | .refused r => r == .illegalConfiguration

/-! Well-formedness: R74 leaves no ill-formed request; what the spec does check is the assembler's form (R80), a configuration
(R8), and the model's byte carriage (log 7). -/

theorem test_every_op_accepts_extreme_data :
    [Instr.cmd 0x00#8, .cmd 0xFF#8, .char 0x00#8, .char 0xFF#8, .clear 0xFF#8, .home 0xFF#8].all Instr.wellFormed = true := by
  decide

theorem test_clear_with_data_not_canonical : (Instr.clear 0xFF#8).canonical = false := by decide

theorem test_home_with_data_not_canonical : (Instr.home 0xA5#8).canonical = false := by decide

theorem test_zero_count_illegal : ¬ ({ toy with nHome := 0 } : Config).Legal := by decide

theorem test_wide_count_illegal : ¬ ({ toy with nPowerup := 16384 } : Config).Legal := by decide

theorem test_widest_count_legal : ({ toy with nPowerup := 16383 } : Config).Legal := by decide

theorem test_toy_misses_contract : toy.Legal ∧ ¬ toy.MeetsContract := by decide

theorem test_illegal_configuration_refused :
    isRefused (step { booted [] with cfg := { toy with nEh := 0 } }) = true := by decide

theorem test_one_byte_truncated : decodeBytes [0x28#8] = .error .truncated := rfl

theorem test_bit_above_word_rejected :
    decodeBytes [0x28#8, 0x04#8] = .error .bitsAboveWord ∧ decodeTableWord 16 0x428 = none := ⟨rfl, by decide⟩

/-! Decoding, from the words of 95_test_vectors.md 2.1, written out bit by bit (R70, R71). -/

theorem test_decode_cmd : decode 0b0000101000#10 = .cmd 0x28#8 ∧ decode 0b0000000001#10 = .cmd 0x01#8 := by decide

theorem test_decode_char : decode 0b0101000001#10 = .char 0x41#8 ∧ decode 0b0111111111#10 = .char 0xFF#8 := by decide

theorem test_decode_clear : decode 0b1000000000#10 = .clear 0x00#8 ∧ decode 0b1011111111#10 = .clear 0xFF#8 := by decide

theorem test_decode_home : decode 0b1100000000#10 = .home 0x00#8 ∧ decode 0b1110100101#10 = .home 0xA5#8 := by decide

theorem test_encode_words :
    encode (.cmd 0xC0#8) = 0x0C0#10 ∧ encode (.char 0x78#8) = 0x178#10 ∧ encode (.clear 0x00#8) = 0x200#10 ∧
      encode (.home 0xA5#8) = 0x3A5#10 := by decide

theorem test_table_words :
    decodeTableWord 16 0x00F = some (.cmd 0x0F#8) ∧ decodeTableWord 16 0x15A = some (.char 0x5A#8) ∧
      decodeTableWord 16 0x2FF = some (.clear 0xFF#8) ∧ decodeTableWord 16 0x300 = some (.home 0x00#8) := by decide

theorem test_nibble_split : (hi 0x80#8, lo 0x80#8) = (0x8#4, 0x0#4) ∧ (hi 0x7F#8, lo 0x7F#8) = (0x7#4, 0xF#4) := by decide

/-! Assembler text (R80, R81). -/

theorem test_parse_char_literal :
    parseLine ['C', 'H', 'A', 'R', ' ', '\'', 'A', '\'', ' ', ';', 'x'] = some (some (.char 0x41#8)) := by decide

theorem test_parse_rejects_missing_byte : parseLine ['C', 'M', 'D', ' ', '0', 'x', '2'] = none := by decide

theorem test_parse_empty_line : parseLine [' ', ';', ' ', 'c'] = some none := by decide

/-- Program P1 of 95_test_vectors.md 3.1. -/
theorem test_print_AB :
    parseLine ['P', 'R', 'I', 'N', 'T', ' ', '"', 'A', 'B', '"'] = some (some (.print [0x41#8, 0x42#8])) ∧
      assemble (fun _ => ⟨0, 0⟩) [.reset, .print [0x41#8, 0x42#8]] =
        [.reset ⟨0, 0⟩, .request (.clear 0x00#8), .request (.home 0x00#8), .request (.char 0x41#8), .request (.char 0x42#8)] := by
  decide

/-- Program P5 of 95_test_vectors.md 3.5, its second RESET at E116 (TOY): one edge after the one after `CMD 0x28`'s accept. -/
theorem test_P5_actions :
    assemble (fun n => if n = 0 then ⟨0, 0⟩ else ⟨1, 0⟩) [.reset, .cmd 0x28#8, .reset, .char 0x5A#8] =
      [.reset ⟨0, 0⟩, .request (.cmd 0x28#8), .reset ⟨1, 0⟩, .request (.char 0x5A#8)] := by decide

/-- P5 from its first accept edge (E114 here E0): the reset at E116 aborts the transfer (0, 0x2). -/
theorem test_P5_aborted_transfer :
    trace 3 (eagerStart 3 [.request (.cmd 0x28#8), .reset ⟨1, 0⟩, .request (.char 0x5A#8)] (booted [])) =
      [(2, ⟨false, 0x2#4, true⟩)] := by decide

/-- A RESET line of two edges after a wait of one. -/
theorem test_reset_line_edges :
    (eagerInputs 5 [.reset ⟨1, 1⟩, .request (.home 0x00#8)] (booted [])).map (fun p => (p.rst, p.reqValid)) =
      [(false, false), (true, false), (true, false), (false, true), (false, true)] := by decide

/-! Programs and latencies (70_reset_and_hazards.md R230, column "L toy"). -/

theorem test_toy_latencies :
    toy.dNib = 5 ∧ latency toy .cmd = 13 ∧ latency toy .char = 18 ∧ latency toy .clear = 18 ∧ latency toy .home = 19 ∧
      latency toy .init = 113 := by decide

/-- The 12 transfers of V-INIT-1, at their edges. -/
theorem test_init_schedule :
    schedule Config.default 0x00#8 0 (program .init) =
      [(15021, ⟨false, 0x3#4, false⟩), (20062, ⟨false, 0x3#4, false⟩), (21103, ⟨false, 0x3#4, false⟩),
       (22144, ⟨false, 0x2#4, false⟩), (27185, ⟨false, 0x2#4, false⟩), (27226, ⟨false, 0x8#4, false⟩),
       (27687, ⟨false, 0x0#4, false⟩), (27728, ⟨false, 0xC#4, false⟩), (28189, ⟨false, 0x0#4, false⟩),
       (28230, ⟨false, 0x1#4, false⟩), (30691, ⟨false, 0x0#4, false⟩), (30732, ⟨false, 0x2#4, false⟩)] := by decide

theorem test_print_cycles : printCycles Config.default 0 = 5005 ∧ printCycles Config.default 2 = 7011 := by decide

/-! One edge each, from the rows of 95_test_vectors.md 2.4 (`CMD 0x28` in TOY). -/

theorem test_cmd_accept :
    nextIs (step (booted [HostInput.present (.cmd 0x28#8)]))
      (row .run .cmd 0#5 .su 1 0x28#8 true false false 0x2#4 []) = true := by decide

theorem test_rise :
    nextIs (step (row .run .cmd 0#5 .su 1 0x28#8 true false false 0x2#4 []))
      (row .run .cmd 0#5 .eh 2 0x28#8 true true false 0x2#4 []) = true := by decide

theorem test_count :
    nextIs (step (row .run .cmd 0#5 .eh 2 0x28#8 true true false 0x2#4 []))
      (row .run .cmd 0#5 .eh 1 0x28#8 true true false 0x2#4 []) = true := by decide

theorem test_fall :
    nextIs (step (row .run .cmd 0#5 .eh 1 0x28#8 true true false 0x2#4 []))
      (row .run .cmd 0#5 .el 2 0x28#8 true false false 0x2#4 []) = true := by decide

theorem test_next_nib :
    nextIs (step (row .run .cmd 0#5 .el 1 0x28#8 true false false 0x2#4 []))
      (row .run .cmd 1#5 .su 1 0x28#8 true false false 0x8#4 []) = true := by decide

theorem test_next_wait :
    nextIs (step (row .run .cmd 1#5 .el 1 0x28#8 true false false 0x8#4 []))
      (row .run .cmd 2#5 .wt 3 0x28#8 true false false 0x8#4 []) = true := by decide

theorem test_finish :
    nextIs (step (row .run .cmd 2#5 .wt 1 0x28#8 true false false 0x8#4 []))
      (row .idle .cmd 2#5 .wt 1 0x28#8 true false false 0x8#4 []) = true := by decide

/-- V-HS-5: valid withdrawn before the edge. -/
theorem test_hold : nextIs (step (booted [⟨false, false, 0b01#2, 0x41#8⟩])) (booted []) = true := by decide

/-- V-HS-6: a request presented while CMD runs changes nothing of it (row E2). -/
theorem test_cmd_waits_in_run :
    nextIs (step (row .run .cmd 0#5 .eh 2 0x28#8 true true false 0x2#4 [HostInput.present (.cmd 0xFF#8)]))
      (row .run .cmd 0#5 .eh 1 0x28#8 true true false 0x2#4 []) = true := by decide

/-- V-HS-3: the FINISH edge accepts nothing. -/
theorem test_char_not_accepted_at_finish :
    nextIs (step (row .run .cmd 2#5 .wt 1 0x28#8 true false false 0x8#4 [HostInput.present (.char 0x41#8)]))
      (row .idle .cmd 2#5 .wt 1 0x28#8 true false false 0x8#4 []) = true := by decide

/-- R181, R102. -/
theorem test_char_accept :
    nextIs (step (booted [HostInput.present (.char 0x41#8)]))
      (row .run .char 0#5 .su 1 0x41#8 true false true 0x4#4 []) = true := by decide

/-- V-CLEAR-3: the word 0x2FF. -/
theorem test_clear_accept :
    nextIs (step (booted [HostInput.present (.clear 0xFF#8)]))
      (row .run .clear 0#5 .su 1 0xFF#8 true false false 0x0#4 []) = true := by decide

/-- R183, with RS falling from a CHAR before it (R134). -/
theorem test_home_accept :
    nextIs (step (row .idle .char 3#5 .wt 1 0x41#8 true false true 0x1#4 [HostInput.present (.home 0x00#8)]))
      (row .run .home 0#5 .su 1 0x00#8 true false false 0x0#4 []) = true := by decide

/-- V-HS-2: RESET wins over a request at the same edge. -/
theorem test_reset_wins :
    nextIs (step (booted [⟨true, true, 0b01#2, 0x41#8⟩]))
      (row .run .init 0#5 .wt 10 0x00#8 false false false 0x0#4 []) = true := by decide

/-- V-INIT-2, E10. -/
theorem test_init_first_nibble :
    nextIs (step (row .run .init 0#5 .wt 1 0x00#8 false false false 0x0#4 []))
      (row .run .init 1#5 .su 1 0x00#8 false false false 0x3#4 []) = true := by decide

/-- V-INIT-3: INIT's FINISH gives BOOTED. -/
theorem test_init_finish :
    nextIs (step (row .run .init 22#5 .wt 1 0x00#8 false false false 0x2#4 [])) (booted []) = true := by decide

/-- V-RST-1: the transfer a reset aborts. -/
theorem test_aborted_transfer :
    traceFrom 2 1 (row .run .cmd 0#5 .eh 2 0x28#8 true true false 0x2#4 [HostInput.reset]) =
      [(2, ⟨false, 0x2#4, true⟩)] := by decide

/-- D7 to D4 for the nibble 0x8 (95_test_vectors.md 2.2). -/
theorem test_data_lines :
    [7, 6, 5, 4].map (dataLine (row .run .cmd 1#5 .su 1 0x28#8 true false false 0x8#4 [])) =
      [some true, some false, some false, some false] := by decide

/-! A word placed right after reset is the request the next step runs. -/

theorem test_placed_words_run :
    (match step (State.reset.withFetchWord 16 0x028), step (State.reset.withFetchWord 16 0x15A) with
      | .next s, .next t => (s.phase, s.seq, s.dreg, s.dQ, t.seq, t.dreg, t.rsQ, t.dQ) ==
          (Phase.run, Seq.cmd, 0x28#8, 0x2#4, Seq.char, 0x5A#8, true, 0x5#4)
      | _, _ => false) = true ∧
    (match step (State.reset.withFetchWord 16 0x2FF), step (State.reset.withFetchWord 16 0x300) with
      | .next s, .next t => (s.phase, s.seq, s.dreg, s.dQ, t.phase, t.seq, t.dreg) ==
          (Phase.run, Seq.clear, 0xFF#8, 0x0#4, Phase.run, Seq.home, 0x00#8)
      | _, _ => false) = true := by decide

/-! Witnesses. For each statement with hypotheses, concrete states and operands that meet all of them together, and for a statement
with several clauses, one for each clause. -/

/-- Where no listed sample resets, no edge does. -/
theorem noReset_of_all {s : State} (h : s.inputs.all (fun p => !p.rst) = true) (a b : Nat) : s.NoReset a b := by
  intro j _ _
  simp only [State.inputAt, List.getD_eq_getElem?_getD]
  cases hp : s.inputs[j]? with
  | none => rfl
  | some p => simpa using List.all_eq_true.1 h p (List.mem_of_getElem? hp)

theorem booted_inv (ins : List HostInput) : (booted ins).Inv := by
  constructor <;> simp [booted, row, uop, program, programInit, programInitHead, sendConst, settleWait, programClear, programHome]

/-- The row after an edge of CMD 0x28's first or second NIB, in each sub-phase. -/
def inNib (i : BitVec 5) (u : SubPhase) (n : Nat) (en : Bool) (d : Nibble) (ins : List HostInput) : State :=
  row .run .cmd i u n 0x28#8 true en false d ins

/-- CMD 0x28's last cycle of its settle. -/
def atFinish (ins : List HostInput) : State := row .run .cmd 2#5 .wt 1 0x28#8 true false false 0x8#4 ins

/-- INIT's last cycle. -/
def initAtFinish (ins : List HostInput) : State := row .run .init 22#5 .wt 1 0x00#8 false false false 0x2#4 ins

theorem setup_inv (ins : List HostInput) : (inNib 0#5 .su 1 false 0x2#4 ins).Inv := by
  constructor <;> simp [inNib, row, len, uop, program, programCmd, sendDreg, toy, Config.default]

theorem high_inv (ins : List HostInput) : (inNib 0#5 .eh 1 true 0x2#4 ins).Inv := by
  constructor <;> simp [inNib, row, len, uop, program, programCmd, sendDreg, toy, Config.default]

theorem low_inv (ins : List HostInput) : (inNib 0#5 .el 1 false 0x2#4 ins).Inv := by
  constructor <;> simp [inNib, row, len, uop, program, programCmd, sendDreg, toy, Config.default]

theorem atFinish_inv (ins : List HostInput) : (atFinish ins).Inv := by
  constructor <;> simp [atFinish, row, len, uop, program, programCmd, sendDreg, settleWait, toy, Config.default]

theorem initAtFinish_inv (ins : List HostInput) : (initAtFinish ins).Inv := by
  constructor <;>
    simp [initAtFinish, row, len, uop, program, programInit, programInitHead, sendConst, settleWait, programClear, programHome, toy,
      Config.default]

theorem witness_DecodeAndEncodeAgree :
    (Instr.cmd 0x00#8).wellFormed = true ∧ (Instr.char 0xFF#8).wellFormed = true ∧ (Instr.clear 0xFF#8).wellFormed = true ∧
      (Instr.home 0xA5#8).wellFormed = true := by decide

theorem witness_AssemblerTextReadsBack :
    writable (.print [0x20#8, 0x7E#8]) = true ∧ writable (.cmd 0xFF#8) = true ∧ writable .reset = true ∧
      (Instr.home 0x00#8).canonical = true ∧ (Instr.char 0xFF#8).canonical = true := by decide

theorem witness_OnlyAnIllegalConfigurationIsRefused :
    (∃ n ∈ ({ toy with nSu := 0 } : Config).counts, n = 0 ∨ 2 ^ toy.cntW ≤ n) ∧
    (∃ n ∈ ({ toy with nHome := 16384 } : Config).counts, n = 0 ∨ 2 ^ toy.cntW ≤ n) ∧
    ∀ n ∈ ({ least with nHome := 16383 } : Config).counts, 1 ≤ n ∧ n < 2 ^ least.cntW := by decide

theorem witness_ResetEdgeWritesEveryRegister :
    toy.Legal ∧ (booted [⟨true, true, 0b01#2, 0x41#8⟩]).sample.rst = true := by decide

theorem witness_HeldResetGivesTheResetState :
    toy.Legal ∧ 0 < 2 ∧ ∀ j, j < 2 → ((booted [HostInput.reset, HostInput.reset]).inputAt j).rst = true := by decide

theorem witness_ResetAbortsOnlyAnEnableHighTransfer :
    ((∃ t, step (inNib 0#5 .eh 1 true 0x2#4 [HostInput.reset]) = .next t) ∧
      (inNib 0#5 .eh 1 true 0x2#4 [HostInput.reset]).Inv ∧ (inNib 0#5 .eh 1 true 0x2#4 [HostInput.reset]).sample.rst = true) ∧
    ((∃ t, step (inNib 0#5 .su 1 false 0x2#4 [HostInput.reset]) = .next t) ∧
      (inNib 0#5 .su 1 false 0x2#4 [HostInput.reset]).Inv) ∧
    (∃ t, step (booted [HostInput.reset]) = .next t) ∧ (booted [HostInput.reset]).Inv :=
  ⟨⟨⟨_, rfl⟩, high_inv _, rfl⟩, ⟨⟨_, rfl⟩, setup_inv _⟩, ⟨_, rfl⟩, booted_inv _⟩

theorem witness_StepRunsThePresentedRequest :
    (booted [⟨false, true, 0b01#2, 0x41#8⟩]).sample.rst = false ∧ (booted [⟨false, true, 0b01#2, 0x41#8⟩]).sample.reqValid = true ∧
      decode ((booted [⟨false, true, 0b01#2, 0x41#8⟩]).sample.reqOp ++ (booted [⟨false, true, 0b01#2, 0x41#8⟩]).sample.reqData) =
        .char 0x41#8 := by decide

theorem witness_PlacedWordIsTheNextRequestRun :
    decodeTableWord 16 0x3FF = some (.home 0xFF#8) ∧ (booted []).phase = .idle ∧ (booted []).Inv ∧
      (atFinish []).phase = .run ∧ (atFinish []).Inv :=
  ⟨by decide, rfl, booted_inv _, rfl, atFinish_inv _⟩

theorem witness_IdleHoldsForAnyNumberOfEdges :
    (booted [⟨false, false, 0b11#2, 0xFF#8⟩]).cfg.Legal ∧ (booted [⟨false, false, 0b11#2, 0xFF#8⟩]).Inv ∧
      (booted [⟨false, false, 0b11#2, 0xFF#8⟩]).phase = .idle ∧
      ∀ j, j < 3 → ((booted [⟨false, false, 0b11#2, 0xFF#8⟩]).inputAt j).rst = false ∧
        ((booted [⟨false, false, 0b11#2, 0xFF#8⟩]).inputAt j).reqValid = false :=
  ⟨by decide, booted_inv _, rfl, by decide⟩

theorem witness_CountArmOnlyCountsDown :
    toy.Legal ∧ (inNib 0#5 .eh 2 true 0x2#4 []).sample.rst = false ∧ (inNib 0#5 .eh 2 true 0x2#4 []).phase = .run ∧
      1 < (inNib 0#5 .eh 2 true 0x2#4 []).cnt := by decide

theorem witness_RiseArmRaisesEnable :
    toy.Legal ∧ (inNib 0#5 .su 1 false 0x2#4 []).sample.rst = false ∧ (inNib 0#5 .su 1 false 0x2#4 []).phase = .run ∧
      (inNib 0#5 .su 1 false 0x2#4 []).cnt = 1 ∧ (inNib 0#5 .su 1 false 0x2#4 []).sub = .su := by decide

theorem witness_FallArmIsTheTransfer :
    (inNib 0#5 .eh 1 true 0x2#4 []).Inv ∧ toy.Legal ∧ (inNib 0#5 .eh 1 true 0x2#4 []).sample.rst = false ∧
      (inNib 0#5 .eh 1 true 0x2#4 []).cnt = 1 ∧ (inNib 0#5 .eh 1 true 0x2#4 []).sub = .eh :=
  ⟨high_inv _, by decide⟩

/-- One for a NIB that follows, one for a WAIT. -/
theorem witness_NextArmStartsTheFollowingMicroOp :
    (toy.Legal ∧ (inNib 0#5 .el 1 false 0x2#4 []).sample.rst = false ∧ (inNib 0#5 .el 1 false 0x2#4 []).cnt = 1 ∧
      uop .cmd ((inNib 0#5 .el 1 false 0x2#4 []).upc.toNat + 1) = some (.nib false .lo)) ∧
    (inNib 1#5 .el 1 false 0x8#4 []).sample.rst = false ∧ (inNib 1#5 .el 1 false 0x8#4 []).cnt = 1 ∧
      uop .cmd ((inNib 1#5 .el 1 false 0x8#4 []).upc.toNat + 1) = some (.wait .cmd) := by decide

/-- One for a request's program, one for INIT. -/
theorem witness_FinishArmEndsTheProgram :
    ((atFinish []).Inv ∧ toy.Legal ∧ (atFinish []).sample.rst = false ∧ (atFinish []).phase = .run ∧ (atFinish []).cnt = 1 ∧
      (atFinish []).sub = .wt ∧ (atFinish []).upc.toNat + 1 = len (atFinish []).seq) ∧
    (initAtFinish []).Inv ∧ (initAtFinish []).sample.rst = false ∧ (initAtFinish []).phase = .run ∧ (initAtFinish []).cnt = 1 ∧
      (initAtFinish []).sub = .wt ∧ (initAtFinish []).upc.toNat + 1 = len (initAtFinish []).seq :=
  ⟨⟨atFinish_inv _, by decide⟩, initAtFinish_inv _, by decide⟩

/-- For CmdIsAcceptedInIdle, CharIsAcceptedInIdle, ClearAndHomeAreAcceptedInIdle, ClearAndHomeDataIsNeverObserved and
DataLinesCarryTheHighNibbleFirst. -/
theorem witness_accepted_in_idle : (booted []).cfg.Legal ∧ (booted []).phase = .idle ∧ 3 < 4 := by decide

theorem witness_RequestWaitsWhileAProgramRuns : (atFinish []).cfg.Legal ∧ (atFinish []).phase = .run := by decide

theorem witness_OnlyResetDisturbsARunningProgram :
    (inNib 0#5 .su 1 false 0x2#4 []).cfg.Legal ∧ (inNib 0#5 .su 1 false 0x2#4 []).NoReset 0 2 ∧
      (inNib 0#5 .su 1 false 0x2#4 [HostInput.present (.home 0xFF#8)]).NoReset 0 2 ∧
      ∀ j t, j < 2 → edges j (inNib 0#5 .su 1 false 0x2#4 []) = .next t → t.phase = .run := by
  refine ⟨by decide, noReset_of_all rfl _ _, noReset_of_all rfl _ _, ?_⟩
  intro j t hj h
  match j, hj with
  | 0, _ => cases h; rfl
  | 1, _ => cases h; rfl

/-- One for each clause: reset, accept, neither. -/
theorem witness_DataRegisterIsWrittenOnlyAtAcceptAndReset :
    ((∃ t, step (atFinish [HostInput.reset]) = .next t) ∧ (atFinish [HostInput.reset]).sample.rst = true) ∧
    ((∃ t, step (booted [HostInput.present (.home 0xFF#8)]) = .next t) ∧
      acceptedAt (booted [HostInput.present (.home 0xFF#8)]) = some (.home 0xFF#8)) ∧
    (∃ t, step (atFinish [HostInput.present (.home 0xFF#8)]) = .next t) ∧
      acceptedAt (atFinish [HostInput.present (.home 0xFF#8)]) = none :=
  ⟨⟨⟨_, rfl⟩, rfl⟩, ⟨⟨_, rfl⟩, rfl⟩, ⟨_, rfl⟩, rfl⟩

/-- One for each clause: phase rises, phase falls, init_done rises, init_done falls. -/
theorem witness_ControlRegistersChangeOnlyAsTheRulesSay :
    ((booted [HostInput.present (.cmd 0x01#8)]).Inv ∧ ∃ t, step (booted [HostInput.present (.cmd 0x01#8)]) = .next t ∧ t.phase = .run) ∧
    ((atFinish []).Inv ∧ ∃ t, step (atFinish []) = .next t ∧ t.phase = .idle ∧ t.seq = .cmd) ∧
    ((initAtFinish []).Inv ∧ (initAtFinish []).initDoneQ = false ∧ ∃ t, step (initAtFinish []) = .next t ∧ t.initDoneQ = true) ∧
    (booted [HostInput.reset]).Inv ∧ ∃ t, step (booted [HostInput.reset]) = .next t ∧ t.initDoneQ = false ∧ t.seq = .init :=
  ⟨⟨booted_inv _, _, rfl, rfl⟩, ⟨atFinish_inv _, _, rfl, rfl, rfl⟩, ⟨initAtFinish_inv _, rfl, _, rfl, rfl⟩, booted_inv _, _, rfl, rfl, rfl⟩

/-- One where EN rises, one where it falls, one where reset makes it fall. -/
theorem witness_EnableChangesOnlyAtRiseFallAndReset :
    ((inNib 0#5 .su 1 false 0x2#4 []).Inv ∧ ∃ t, step (inNib 0#5 .su 1 false 0x2#4 []) = .next t ∧ t.enQ = true) ∧
    ((inNib 0#5 .eh 1 true 0x2#4 []).Inv ∧ ∃ t, step (inNib 0#5 .eh 1 true 0x2#4 []) = .next t ∧ t.enQ = false) ∧
    ∃ t, step (inNib 0#5 .eh 2 true 0x2#4 [HostInput.reset]) = .next t ∧ t.enQ = false :=
  ⟨⟨setup_inv _, _, rfl, rfl⟩, ⟨high_inv _, _, rfl, rfl⟩, _, rfl, rfl⟩

theorem witness_BusDataChangesOnlyAtTheStartOfANibble :
    (inNib 0#5 .el 1 false 0x2#4 []).Inv ∧ (inNib 0#5 .el 1 false 0x2#4 []).sample.rst = false ∧
      ∃ t, step (inNib 0#5 .el 1 false 0x2#4 []) = .next t ∧ t.dQ ≠ (inNib 0#5 .el 1 false 0x2#4 []).dQ :=
  ⟨low_inv _, rfl, _, rfl, by decide⟩

theorem witness_InvariantsHoldAfterReset :
    toy.Legal ∧ (atFinish [HostInput.reset]).sample.rst = true ∧ ∃ t, step (atFinish [HostInput.reset]) = .next t :=
  ⟨by decide, rfl, _, rfl⟩

/-- The reset clause holds from a state without the invariants: EN high in IDLE. -/
theorem witness_EveryEdgeKeepsTheInvariants :
    ((booted []).Inv ∧ ∃ t, step (booted []) = .next t) ∧
    ∃ t u, step { booted [HostInput.reset] with enQ := true } = .next t ∧ edges 2 t = .next u :=
  ⟨⟨booted_inv _, _, rfl⟩, _, _, rfl, rfl⟩

theorem witness_EveryEdgeKeepsTheRestingValues :
    (atFinish []).Inv ∧ (atFinish []).Rests ∧ (∃ t, step (atFinish []) = .next t) ∧ (booted []).Rests := by
  refine ⟨atFinish_inv _, ?_, ⟨_, rfl⟩, ?_⟩ <;> constructor <;> decide

/-- One for each sub-phase, and one for the last micro-op. -/
theorem witness_SubPhaseLastsItsCount :
    toy.Legal ∧
    ((inNib 0#5 .su 1 false 0x2#4 []).NoReset 0 1 ∧ 1 ≤ (inNib 0#5 .su 1 false 0x2#4 []).cnt) ∧
    ((inNib 0#5 .eh 2 true 0x2#4 []).NoReset 0 2 ∧ 1 ≤ (inNib 0#5 .eh 2 true 0x2#4 []).cnt) ∧
    ((inNib 1#5 .el 2 false 0x8#4 []).NoReset 0 2 ∧ (inNib 1#5 .el 2 false 0x8#4 []).upc.toNat + 1 < len .cmd) ∧
    (atFinish []).NoReset 0 1 ∧ (atFinish []).phase = .run ∧ len (atFinish []).seq ≤ (atFinish []).upc.toNat + 1 :=
  ⟨by decide, ⟨noReset_of_all rfl _ _, by decide⟩, ⟨noReset_of_all rfl _ _, by decide⟩, ⟨noReset_of_all rfl _ _, by decide⟩,
    noReset_of_all rfl _ _, by decide⟩

theorem witness_NibbleWaveform :
    (inNib 0#5 .su 1 false 0x2#4 []).NoReset 0 toy.dNib ∧ toy.Legal ∧ (inNib 0#5 .su 1 false 0x2#4 []).phase = .run ∧
      (inNib 0#5 .su 1 false 0x2#4 []).sub = .su ∧ (inNib 0#5 .su 1 false 0x2#4 []).cnt = toy.nSu ∧
      (inNib 0#5 .su 1 false 0x2#4 []).enQ = false :=
  ⟨noReset_of_all rfl _ _, by decide⟩

/-- One for a request's program, one for INIT; both are followed by a request presented at their next-accept edge. -/
theorem witness_ProgramLatencyAndSchedule :
    ((inNib 0#5 .su 1 false 0x2#4 []).NoReset 0 (latency toy .cmd) ∧ uop .cmd 0 = some (.nib false .hi) ∧
      start (.nib false .hi) 0x28#8 (inNib 0#5 .su 1 false 0x2#4 []) = inNib 0#5 .su 1 false 0x2#4 []) ∧
    (State.resetOf toy).NoReset 0 (latency toy .init) ∧ uop .init 0 = some (.wait .powerup) ∧
      start (.wait .powerup) 0x00#8 (State.resetOf toy) = State.resetOf toy ∧ (State.resetOf toy).enQ = false ∧
      (booted [HostInput.present (.cmd 0x00#8)]).Presents 0 (.cmd 0x00#8) :=
  ⟨⟨noReset_of_all rfl _ _, by decide, by decide⟩, noReset_of_all rfl _ _, by decide, by decide, rfl, rfl⟩

/-- For CmdRunsItsWholeProgram, CharRunsItsWholeProgram, ClearRunsItsWholeProgram, HomeRunsItsWholeProgram and, with two different idle
states, RequestWaveformIgnoresThePast. -/
theorem witness_request_runs (i : Instr) (k : Nat) :
    (booted [HostInput.present i]).cfg.Legal ∧ (booted [HostInput.present i]).Inv ∧ (booted [HostInput.present i]).phase = .idle ∧
      (booted [HostInput.present i]).Presents 0 i ∧ (booted [HostInput.present i]).NoReset 1 k ∧
      (row .idle .char 3#5 .wt 1 0x41#8 true false true 0x1#4 [HostInput.present i, ⟨false, true, 0b10#2, 0x00#8⟩]).Presents 0 i ∧
      (row .idle .char 3#5 .wt 1 0x41#8 true false true 0x1#4 [HostInput.present i, ⟨false, true, 0b10#2, 0x00#8⟩]).NoReset 1 k :=
  ⟨show toy.Legal by decide, booted_inv _, rfl, Sys2Proof.Laws.portAction_present i, noReset_of_all rfl _ _,
    Sys2Proof.Laws.portAction_present i, noReset_of_all rfl _ _⟩

theorem witness_InitRunsItsWholeProgram :
    toy.Legal ∧ { State.resetOf toy with inputs := [HostInput.present (.cmd 0x0F#8)] }.NoReset 0 113 :=
  ⟨by decide, noReset_of_all rfl _ _⟩

/-- CMD under the least configuration, whose `L` is 7: 8 edges from idle to idle. -/
theorem witness_TransfersAreThoseOfTheAcceptedRequests :
    { booted [HostInput.present (.cmd 0x28#8)] with cfg := least }.NoReset 0 8 ∧
      ∃ t, edges 8 { booted [HostInput.present (.cmd 0x28#8)] with cfg := least } = .next t ∧ t.phase = .idle :=
  ⟨noReset_of_all rfl _ _, _, rfl, rfl⟩

/-- INIT under the least configuration, whose `L` is 47, with no request and with one withdrawn before INIT ends. -/
theorem witness_TransfersDependOnlyOnTheAcceptedRequests :
    { State.resetOf least with inputs := [] }.NoReset 0 47 ∧
    { State.resetOf least with inputs := [HostInput.present (.home 0x00#8)] }.NoReset 0 48 ∧
    (∃ t, edges 47 { State.resetOf least with inputs := [] } = .next t ∧ t.phase = .idle) ∧
    (∃ u, edges 48 { State.resetOf least with inputs := [HostInput.present (.home 0x00#8)] } = .next u ∧ u.phase = .idle) ∧
    accepted 47 { State.resetOf least with inputs := [] } =
      accepted 48 { State.resetOf least with inputs := [HostInput.present (.home 0x00#8)] } :=
  ⟨noReset_of_all rfl _ _, noReset_of_all rfl _ _, ⟨_, rfl, rfl⟩, ⟨_, rfl, rfl⟩, rfl⟩

/-- V-CMD-2: a run with two transfers. -/
theorem witness_TransfersAreSpaced :
    (booted [HostInput.present (.cmd 0x28#8)]).cfg.Legal ∧ (booted [HostInput.present (.cmd 0x28#8)]).Inv ∧
      (booted [HostInput.present (.cmd 0x28#8)]).NoReset 0 9 ∧
      trace 9 (booted [HostInput.present (.cmd 0x28#8)]) = [(3, ⟨false, 0x2#4, false⟩), (8, ⟨false, 0x8#4, false⟩)] :=
  ⟨show toy.Legal by decide, booted_inv _, noReset_of_all rfl _ _, by decide⟩

/-- CMD then HOME in TOY, the second request presented at E14. -/
theorem witness_BackToBackRequestsAreOneCycleApart :
    let s := booted (HostInput.present (.cmd 0x28#8) :: List.replicate 13 HostInput.quiet ++ [HostInput.present (.home 0x00#8)])
    s.cfg.Legal ∧ s.Inv ∧ s.phase = .idle ∧ s.Presents 0 (.cmd 0x28#8) ∧ s.Presents (latency toy .cmd + 1) (.home 0x00#8) ∧
      s.NoReset 1 (latency toy .cmd + latency toy .home + 2) :=
  ⟨by decide, booted_inv _, rfl, rfl, rfl, noReset_of_all rfl _ _⟩

theorem witness_PrintRunsOnTheEagerHost : (booted []).cfg.Legal ∧ (booted []).Inv ∧ (booted []).phase = .idle :=
  ⟨by decide, booted_inv _, rfl⟩

theorem witness_ResetLineOnTheEagerHost :
    (booted []).cfg.Legal ∧ (booted []).Inv ∧ (booted []).phase = .idle ∧
      (row .idle .char 3#5 .wt 1 0x41#8 true false true 0x1#4 []).cfg.Legal :=
  ⟨by decide, booted_inv _, rfl, by decide⟩

end Sys2Proof.Tests
end

/-! The scope of the model (00_scope.md): the legality of a configuration and what it decides (O11), and the default configuration
(O8). -/

namespace Sys2Proof.Proofs

open Sys2Proof.Machine Sys2Proof.Laws

/-- The upper bound of R8 as a strict one: `2 ^ CNT_W` is not 0, so its predecessor is no truncated difference. -/
theorem legal_iff_lt (c : Config) : c.Legal ↔ ∀ n ∈ c.counts, 1 ≤ n ∧ n < 2 ^ c.cntW := by
  have hpos : 0 < 2 ^ c.cntW := Nat.two_pow_pos c.cntW
  refine forall₂_congr fun n _ => ?_
  omega

/-- One count of 0, or one that does not fit in `CNT_W` bits, makes a configuration illegal (R8). -/
theorem not_legal_of_bad_count {c : Config} {n : Nat} (hmem : n ∈ c.counts) (hbad : n = 0 ∨ 2 ^ c.cntW ≤ n) : ¬ c.Legal := by
  intro hl
  obtain ⟨hone, hlt⟩ := (legal_iff_lt c).1 hl n hmem
  omega

/-- In a legal configuration every request has a next state. -/
theorem exec_total {s : State} (hl : s.cfg.Legal) (i : Instr) : ∃ t, exec i s = .next t :=
  ⟨presentEdge (seqOf i) i.data s, by rw [exec_eq, clocked_legal hl]⟩

/-- Settles O11: the refusals are `clocked`'s on an illegal configuration; a legal one never refuses, and a run keeps it legal. -/
theorem onlyAnIllegalConfigurationIsRefused : Obligations.OnlyAnIllegalConfigurationIsRefused := by
  unfold Obligations.OnlyAnIllegalConfigurationIsRefused
  refine ⟨fun s hbad => ?_, fun s k hgood => ?_⟩
  · obtain ⟨n, hmem, hn⟩ := hbad
    have hl : ¬ s.cfg.Legal := not_legal_of_bad_count hmem hn
    exact ⟨step_illegal hl, fun i => exec_illegal hl⟩
  · have hl : s.cfg.Legal := (legal_iff_lt s.cfg).2 hgood
    obtain ⟨t, ht⟩ := edges_total hl k
    exact ⟨exec_total hl, t, ht, edges_frame ht⟩

/-- The twelve defaults of R6 lie within the bounds of R8. -/
theorem default_legal : Config.default.Legal := by decide

/-- The eleven source times of R6, each rounded up to cycles of the default clock, give the default counts exactly. -/
theorem default_count_eq_ceilCycles : ∀ p ∈ Config.default.sourceTimes, p.1 = Config.default.ceilCycles p.2 := by decide

/-- A legal configuration whose counts are exactly the rounded source times meets the timing contract (R8, R225). -/
theorem meetsContract_of_eq_ceilCycles {c : Config} (hl : c.Legal) (hceil : ∀ p ∈ c.sourceTimes, p.1 = c.ceilCycles p.2) :
    c.MeetsContract :=
  ⟨hl, fun p hp => (hceil p hp).ge⟩

/-- Settles O8: the contract follows from the exact counts; the width bounds are `15000 < 2 ^ 14` and `2 ^ 13 ≤ 15000`. -/
theorem defaultConfigurationFollowsTheSourceTimes : Obligations.DefaultConfigurationFollowsTheSourceTimes := by
  unfold Obligations.DefaultConfigurationFollowsTheSourceTimes
  exact ⟨meetsContract_of_eq_ceilCycles default_legal default_count_eq_ceilCycles, default_count_eq_ceilCycles,
    by decide, by decide⟩

end Sys2Proof.Proofs

/-! The registers of the TC (10_state.md): their values at reset (O12, O13, O34), what writes them (O28, O30, O31), and where they
rest (O36). -/

namespace Sys2Proof.Proofs

open Sys2Proof.Machine Sys2Proof.Laws

/-! ### Reset (R35) -/

/-- The reset edge writes every register, so but for the coming inputs its state is the reset state. -/
theorem resetArm_eq_resetOf (s : State) : resetArm s = { State.resetOf s.cfg with inputs := s.inputs } := rfl

theorem resetOf_outputs (c : Config) :
    ready (State.resetOf c) = false ∧ initDone (State.resetOf c) = false ∧ lcdEn (State.resetOf c) = false ∧
      lcdRs (State.resetOf c) = false ∧ lcdD (State.resetOf c) = 0x0#4 :=
  ⟨rfl, rfl, rfl, rfl, rfl⟩

theorem resetArm_outputs (s : State) :
    ready (resetArm s) = false ∧ initDone (resetArm s) = false ∧ lcdEn (resetArm s) = false ∧ lcdRs (resetArm s) = false ∧
      lcdD (resetArm s) = 0x0#4 :=
  resetOf_outputs s.cfg

/-- In the reset state entry 0 of INIT, `WAIT(POWERUP)`, is under way with its legal count. -/
theorem resetOf_inv {c : Config} (hl : c.Legal) : (State.resetOf c).Inv where
  en_iff := by simp
  run_bounds _ := by
    obtain ⟨hone, hmax⟩ := legal_count hl .powerup
    exact ⟨hone, hmax, len_pos .init⟩
  idle_done hidle := by simp at hidle
  not_done _ := ⟨rfl, rfl⟩
  wt_wait _ := ⟨.powerup, rfl⟩
  nib_sub hne := absurd rfl hne
  done_seq hdone := by simp at hdone

/-- In RUN the resting values ask only that `upc` is below the length of its program. -/
theorem rests_of_run {s : State} (hp : s.phase = .run) (hlt : s.upc.toNat < len s.seq) : s.Rests where
  upc_lt := hlt
  idle_upc hidle := by simp [hp] at hidle
  idle_cnt hidle := by simp [hp] at hidle
  idle_sub hidle := by simp [hp] at hidle

theorem resetOf_rests (c : Config) : (State.resetOf c).Rests :=
  rests_of_run rfl (len_pos .init)

/-- The resting values do not speak of the coming inputs. -/
theorem rests_inputs {s : State} (hr : s.Rests) (ins : List HostInput) : { s with inputs := ins }.Rests :=
  ⟨hr.upc_lt, hr.idle_upc, hr.idle_cnt, hr.idle_sub⟩

/-- Settles O12: the fields of `resetOf` at the default configuration, whose power-up count is 15000. -/
theorem resetStateHoldsTheSpecValues : Obligations.ResetStateHoldsTheSpecValues := by
  unfold Obligations.ResetStateHoldsTheSpecValues
  exact ⟨rfl, rfl, rfl, rfl, rfl, rfl, rfl, rfl, rfl, rfl, rfl, resetOf_outputs Config.default⟩

/-- Settles O13: the edge runs the RESET arm, whatever the registers and the other inputs. -/
theorem resetEdgeWritesEveryRegister : Obligations.ResetEdgeWritesEveryRegister := by
  unfold Obligations.ResetEdgeWritesEveryRegister
  intro s hl hrst
  obtain ⟨hready, hdone, hen, hrs, hd⟩ := resetArm_outputs s.popInput
  exact ⟨_, step_reset hl hrst, rfl, rfl, rfl, rfl, rfl, rfl, rfl, rfl, rfl, rfl, hready, hdone, hen, hrs, hd, rfl, rfl⟩

/-- Settles O34: a reset edge gives the reset state of the same configuration, legal because the edge was not refused. -/
theorem invariantsHoldAfterReset : Obligations.InvariantsHoldAfterReset := by
  unfold Obligations.InvariantsHoldAfterReset
  refine ⟨fun c hl => ⟨resetOf_inv hl, resetOf_rests c⟩, fun s t hrst h => ?_⟩
  have hl : s.cfg.Legal := (step_cases h).1
  rw [step_reset hl hrst, resetArm_eq_resetOf] at h
  cases h
  exact ⟨inv_inputs (resetOf_inv hl) _, rests_inputs (resetOf_rests s.cfg) _⟩

/-! ### What an edge writes -/

/-- A reset edge accepts no request (R206). -/
theorem acceptedAt_reset {s : State} (hrst : s.sample.rst = true) : acceptedAt s = none := by
  simp [acceptedAt, (portAction_reset_iff s.sample).2 hrst]

theorem acceptedAt_quiet {s : State} (hq : portAction s.sample = .quiet) : acceptedAt s = none := by
  simp [acceptedAt, hq]

/-- What a step can do, told apart by `rst` and by the request the edge accepts: RESET, ACCEPT, HOLD, or an arm of the running
program. -/
theorem step_cases_acceptedAt {s t : State} (h : step s = .next t) :
    (s.sample.rst = true ∧ acceptedAt s = none ∧ t = resetArm s.popInput) ∨
    (s.sample.rst = false ∧ s.phase = .idle ∧ ∃ i, acceptedAt s = some i ∧ t = acceptArm (seqOf i) i.data s.popInput) ∨
    (s.sample.rst = false ∧ s.phase = .idle ∧ acceptedAt s = none ∧ t = s.popInput) ∨
    (s.sample.rst = false ∧ s.phase = .run ∧ acceptedAt s = none ∧ t = advance s.popInput) := by
  obtain ⟨-, ⟨hrst, ht⟩ | ⟨hrst, hp, i, hi, ht⟩ | ⟨hrst, hp, hq, ht⟩ | ⟨hrst, hp, ht⟩⟩ := step_cases h
  · exact .inl ⟨hrst, acceptedAt_reset hrst, ht⟩
  · exact .inr (.inl ⟨hrst, hp, i, acceptedAt_idle hp hi, ht⟩)
  · exact .inr (.inr (.inl ⟨hrst, hp, acceptedAt_quiet hq, ht⟩))
  · exact .inr (.inr (.inr ⟨hrst, hp, acceptedAt_run hp, ht⟩))

/-! ACCEPT (R102): what its Start of entry 0 leaves as the accept edge wrote it. -/

@[simp] theorem acceptArm_phase (q : Seq) (b : Byte) (s : State) : (acceptArm q b s).phase = .run := by
  unfold acceptArm; split <;> simp
@[simp] theorem acceptArm_seq (q : Seq) (b : Byte) (s : State) : (acceptArm q b s).seq = q := by
  unfold acceptArm; split <;> simp
@[simp] theorem acceptArm_upc (q : Seq) (b : Byte) (s : State) : (acceptArm q b s).upc = 0#5 := by
  unfold acceptArm; split <;> simp
@[simp] theorem acceptArm_dreg (q : Seq) (b : Byte) (s : State) : (acceptArm q b s).dreg = b := by
  unfold acceptArm; split <;> simp
@[simp] theorem acceptArm_initDoneQ (q : Seq) (b : Byte) (s : State) : (acceptArm q b s).initDoneQ = s.initDoneQ := by
  unfold acceptArm; split <;> simp

/-- What an edge of a running program can do to `phase`, `upc` and `init_done_q`: nothing (COUNT, RISE, FALL), NEXT, or FINISH at
the end of the program's last micro-op, a WAIT with `cnt` 1. -/
theorem advance_cases_of_inv {s : State} (hinv : s.Inv) (hp : s.phase = .run) :
    ((advance s).phase = .run ∧ (advance s).upc = s.upc ∧ (advance s).initDoneQ = s.initDoneQ) ∨
    (∃ u, uop s.seq (s.upc.toNat + 1) = some u ∧ advance s = nextArm u s) ∨
    (s.cnt = 1 ∧ s.sub = .wt ∧ s.upc.toNat + 1 = len s.seq ∧ advance s = finishArm s) := by
  obtain ⟨-, h⟩ | ⟨-, -, h⟩ | ⟨-, -, h⟩ | ⟨hcnt, -, h⟩ := advance_cases s
  · left; simp [h, hp]
  · left; simp [h, hp]
  · left; simp [h, hp]
  · right
    obtain ⟨u, hu, hnext⟩ | ⟨hlen, hfinish⟩ := endMicroOp_cases s
    · exact .inl ⟨u, hu, h.trans hnext⟩
    · obtain ⟨hlast, hsub⟩ := inv_last hinv hp hlen
      exact .inr ⟨le_antisymm hcnt (hinv.run_bounds hp).1, hsub, hlast, h.trans hfinish⟩

/-- The invariants hold also once the edge's sample is taken. -/
theorem inv_popInput {s : State} (hinv : s.Inv) : s.popInput.Inv := inv_inputs hinv _

/-- Settles O30, by the four things a step can do; only RESET and ACCEPT write `dreg`. -/
theorem dataRegisterIsWrittenOnlyAtAcceptAndReset : Obligations.DataRegisterIsWrittenOnlyAtAcceptAndReset := by
  unfold Obligations.DataRegisterIsWrittenOnlyAtAcceptAndReset
  intro s t h
  obtain ⟨hrst, hacc, rfl⟩ | ⟨hrst, -, i, hacc, rfl⟩ | ⟨hrst, -, hacc, rfl⟩ | ⟨hrst, -, hacc, rfl⟩ := step_cases_acceptedAt h
  · simp [hrst, hacc]
  · simp [hrst, hacc]
  · simp [hrst, hacc]
  · obtain ⟨-, -, hdreg, -⟩ := advance_keeps s.popInput
    simp [hrst, hacc, hdreg]

/-- `seq` is written by RESET and ACCEPT and by nothing else (R24). -/
theorem step_seq {s t : State} (h : step s = .next t) :
    (s.sample.rst = true → t.seq = .init) ∧ (∀ i, acceptedAt s = some i → t.seq = seqOf i) ∧
      (s.sample.rst = false → acceptedAt s = none → t.seq = s.seq) := by
  obtain ⟨hrst, hacc, rfl⟩ | ⟨hrst, -, i, hacc, rfl⟩ | ⟨hrst, -, hacc, rfl⟩ | ⟨hrst, -, hacc, rfl⟩ := step_cases_acceptedAt h
  · simp [hrst, hacc]
  · simp [hrst, hacc]
  · simp [hrst, hacc]
  · obtain ⟨-, hseq, -, -⟩ := advance_keeps s.popInput
    simp [hrst, hacc, hseq]

/-- An idle sequencer starts to run only by RESET or ACCEPT; HOLD leaves it idle (R23). -/
theorem step_idle_to_run {s t : State} (h : step s = .next t) (hs : s.phase = .idle) (ht : t.phase = .run) :
    s.sample.rst = true ∨ ∃ i, acceptedAt s = some i := by
  obtain ⟨hrst, -, -⟩ | ⟨-, -, i, hacc, -⟩ | ⟨-, -, -, rfl⟩ | ⟨-, hrun, -, -⟩ := step_cases_acceptedAt h
  · exact .inl hrst
  · exact .inr ⟨i, hacc⟩
  · simp [hs] at ht
  · simp [hs] at hrun

/-- A running sequencer becomes idle only by FINISH (R23, R108). -/
theorem step_run_to_idle {s t : State} (hinv : s.Inv) (h : step s = .next t) (hs : s.phase = .run) (ht : t.phase = .idle) :
    s.sample.rst = false ∧ s.cnt = 1 ∧ s.sub = .wt ∧ s.upc.toNat + 1 = len s.seq := by
  obtain ⟨-, -, rfl⟩ | ⟨-, hidle, -⟩ | ⟨-, hidle, -, -⟩ | ⟨hrst, -, -, rfl⟩ := step_cases_acceptedAt h
  · simp at ht
  · simp [hs] at hidle
  · simp [hs] at hidle
  · obtain ⟨hrun, -, -⟩ | ⟨u, -, hnext⟩ | ⟨hcnt, hsub, hlast, -⟩ := advance_cases_of_inv (inv_popInput hinv) hs
    · simp [hrun] at ht
    · simp [hnext, hs] at ht
    · exact ⟨hrst, hcnt, hsub, hlast⟩

/-- Only INIT's FINISH sets `init_done_q` (R29): while it is 0, INIT runs (R37 item 4). -/
theorem step_initDoneQ_rise {s t : State} (hinv : s.Inv) (h : step s = .next t) (hs : s.initDoneQ = false)
    (ht : t.initDoneQ = true) : s.phase = .run ∧ s.seq = .init ∧ t.phase = .idle := by
  obtain ⟨hp, hseq⟩ := hinv.not_done hs
  refine ⟨hp, hseq, ?_⟩
  obtain ⟨-, -, rfl⟩ | ⟨-, hidle, -⟩ | ⟨-, hidle, -, -⟩ | ⟨-, -, -, rfl⟩ := step_cases_acceptedAt h
  · simp at ht
  · simp [hp] at hidle
  · simp [hp] at hidle
  · obtain ⟨-, -, hkeep⟩ | ⟨u, -, hnext⟩ | ⟨-, -, -, hfinish⟩ := advance_cases_of_inv (inv_popInput hinv) hp
    · simp [hkeep, hs] at ht
    · simp [hnext, hs] at ht
    · simp [hfinish]

/-- Only reset clears `init_done_q` (R29). -/
theorem step_initDoneQ_fall {s t : State} (hinv : s.Inv) (h : step s = .next t) (hs : s.initDoneQ = true)
    (ht : t.initDoneQ = false) : s.sample.rst = true := by
  obtain ⟨hrst, -, -⟩ | ⟨-, -, i, -, rfl⟩ | ⟨-, -, -, rfl⟩ | ⟨-, hp, -, rfl⟩ := step_cases_acceptedAt h
  · exact hrst
  · simp [hs] at ht
  · simp [hs] at ht
  · obtain ⟨-, -, hkeep⟩ | ⟨u, -, hnext⟩ | ⟨-, -, -, hfinish⟩ := advance_cases_of_inv (inv_popInput hinv) hp
    · simp [hkeep, hs] at ht
    · simp [hnext, hs] at ht
    · simp [hfinish, hs] at ht

/-- Settles O31, one lemma for each register and direction. -/
theorem controlRegistersChangeOnlyAsTheRulesSay : Obligations.ControlRegistersChangeOnlyAsTheRulesSay := by
  unfold Obligations.ControlRegistersChangeOnlyAsTheRulesSay
  intro s t hinv h
  obtain ⟨hreset, haccept, hkeep⟩ := step_seq h
  exact ⟨step_idle_to_run h, step_run_to_idle hinv h, hreset, haccept, hkeep, step_initDoneQ_rise hinv h,
    step_initDoneQ_fall hinv h⟩

/-! ### The resting values (R25, R27) -/

theorem acceptArm_rests (q : Seq) (b : Byte) (s : State) : (acceptArm q b s).Rests :=
  rests_of_run (acceptArm_phase q b s) (by simpa using len_pos q)

/-- NEXT stays below the length because the following entry exists; FINISH stops on the last entry, a WAIT counted down to 1. -/
theorem advance_rests {s : State} (hinv : s.Inv) (hp : s.phase = .run) : (advance s).Rests := by
  obtain ⟨hrun, hupc, -⟩ | ⟨u, hu, hnext⟩ | ⟨hcnt, hsub, hlast, hfinish⟩ := advance_cases_of_inv hinv hp
  · obtain ⟨-, hseq, -, -⟩ := advance_keeps s
    obtain ⟨-, -, hlt⟩ := hinv.run_bounds hp
    exact rests_of_run hrun (by rwa [hupc, hseq])
  · have hlt : (s.upc + 1).toNat < len s.seq := by rw [upc_succ hu]; exact uop_lt hu
    rw [hnext]
    exact rests_of_run (by simp [hp]) (by simpa using hlt)
  · have hlt : s.upc.toNat < len s.seq := by omega
    rw [hfinish]
    exact ⟨hlt, fun _ => hlast, fun _ => hcnt, fun _ => hsub⟩

/-- Settles O36, by the four things a step can do. -/
theorem everyEdgeKeepsTheRestingValues : Obligations.EveryEdgeKeepsTheRestingValues := by
  unfold Obligations.EveryEdgeKeepsTheRestingValues
  intro s t hinv hrests h
  obtain ⟨-, -, rfl⟩ | ⟨-, -, i, -, rfl⟩ | ⟨-, -, -, rfl⟩ | ⟨-, hp, -, rfl⟩ := step_cases_acceptedAt h
  · exact rests_inputs (resetOf_rests s.cfg) _
  · exact acceptArm_rests _ _ _
  · exact rests_inputs hrests _
  · exact advance_rests (inv_popInput hinv) hp

/-! ### The data lines (R21, R54) -/

/-- Bit `j` of `lcd_d` drives D(4+j), and bit `j` of `HI(b)` is bit `4+j` of `b`. -/
theorem dataLine_of_hi {t : State} {b : Byte} (hd : t.dQ = hi b) {j : Nat} (hj : j < 4) :
    dataLine t (4 + j) = some (b.getLsbD (4 + j)) := by
  have hline : 4 ≤ 4 + j ∧ 4 + j ≤ 7 := by omega
  simp [dataLine, hline, lcdD, hd, hi, hj]

/-- A request whose program opens with the high nibble of `dreg` in mode `m` drives RS and the data lines so from its accept edge. -/
theorem exec_drives_high_nibble {i : Instr} {m : Bool} (hu : uop (seqOf i) 0 = some (.nib m .hi)) {s : State}
    (hl : s.cfg.Legal) (hp : s.phase = .idle) :
    ∃ t, exec i s = .next t ∧ lcdRs t = m ∧ ∀ j, j < 4 → dataLine t (4 + j) = some (i.data.getLsbD (4 + j)) :=
  ⟨_, (exec_idle hl hp).trans (congrArg _ (acceptArm_eq hu i.data s)), rfl, fun _ hj => dataLine_of_hi rfl hj⟩

/-- Settles O28: CMD and CHAR both open with the high nibble of their byte, in mode COMMAND and DATA. -/
theorem dataLinesCarryTheHighNibbleFirst : Obligations.DataLinesCarryTheHighNibbleFirst := by
  unfold Obligations.DataLinesCarryTheHighNibbleFirst
  intro b s hl hp
  obtain ⟨t, ht, htrs, htd⟩ := exec_drives_high_nibble (i := .cmd b) (m := rsCommand) rfl hl hp
  obtain ⟨u, hu, hurs, hud⟩ := exec_drives_high_nibble (i := .char b) (m := rsData) rfl hl hp
  exact ⟨t, u, ht, hu, htrs, hurs, fun j hj => ⟨htd j hj, hud j hj⟩⟩

end Sys2Proof.Proofs

/-! Runs and the transfer trace (20_memory.md): what disturbs a running program (O29), which transfers a run makes (O47), and how
far apart they are (O49). -/

namespace Sys2Proof.Proofs

open Sys2Proof.Machine Sys2Proof.Laws

/-! ### The arm an edge runs (R100) -/

/-- `Arm s t`: the edge from `s` to `t`, without reset, runs the arm of R100 that the constructor is named after, under the
conditions it lists. -/
inductive Arm (s : State) : State → Prop
  | accept (i : Instr) : s.phase = .idle → acceptedAt s = some i → Arm s (acceptArm (seqOf i) i.data s.popInput)
  | hold : s.phase = .idle → acceptedAt s = none → Arm s s.popInput
  | count : s.phase = .run → 1 < s.cnt → Arm s (countArm s.popInput)
  | rise : s.phase = .run → s.cnt = 1 → s.sub = .su → Arm s (riseArm s.popInput)
  | fall : s.phase = .run → s.cnt = 1 → s.sub = .eh → Arm s (fallArm s.popInput)
  | next (u : MicroOp) : s.phase = .run → s.cnt = 1 → s.sub = .el ∨ s.sub = .wt → uop s.seq (s.upc.toNat + 1) = some u →
      Arm s (nextArm u s.popInput)
  | finish : s.phase = .run → s.cnt = 1 → s.sub = .wt → s.upc.toNat + 1 = len s.seq → Arm s (finishArm s.popInput)

/-- Under the invariants every arm of the running program but COUNT runs at `cnt` = 1. -/
theorem arm_of_advance {s : State} (hinv : s.Inv) (hp : s.phase = .run) : Arm s (advance s.popInput) := by
  obtain ⟨hone, -, -⟩ := hinv.run_bounds hp
  obtain ⟨hcnt, h⟩ | ⟨hcnt, hsub, h⟩ | ⟨hcnt, hsub, h⟩ | ⟨hcnt, hsub, h⟩ := advance_cases s.popInput <;> rw [h]
  · exact .count hp hcnt
  · exact .rise hp (le_antisymm hcnt hone) hsub
  · exact .fall hp (le_antisymm hcnt hone) hsub
  · obtain ⟨u, hu, hnext⟩ | ⟨hlen, hfinish⟩ := endMicroOp_cases s.popInput
    · exact hnext ▸ .next u hp (le_antisymm hcnt hone) hsub hu
    · obtain ⟨hlast, hwt⟩ := inv_last hinv hp hlen
      exact hfinish ▸ .finish hp (le_antisymm hcnt hone) hwt hlast

/-- An edge without reset runs one of the seven arms other than RESET. -/
theorem arm_of_step {s t : State} (hinv : s.Inv) (hrst : s.sample.rst = false) (h : step s = .next t) : Arm s t := by
  obtain ⟨hreset, -⟩ | ⟨-, hp, i, hacc, rfl⟩ | ⟨-, hp, hacc, rfl⟩ | ⟨-, hp, -, rfl⟩ := step_cases_acceptedAt h
  · simp [hrst] at hreset
  · exact .accept i hp hacc
  · exact .hold hp hacc
  · exact arm_of_advance hinv hp

/-- ACCEPT is a Start of the program's entry 0 with the request's byte (R102). -/
theorem acceptArm_eq_start {q : Seq} {u : MicroOp} (hu : uop q 0 = some u) (b : Byte) (s : State) :
    acceptArm q b s = start u b { s with seq := q, dreg := b, phase := .run, upc := 0#5 } := by
  simp [acceptArm, hu]

theorem ne_eh_of_low {p : SubPhase} (h : p = .el ∨ p = .wt) : p ≠ .eh := by
  rcases h with rfl | rfl <;> simp

/-! ### Every edge keeps the invariants (R117) -/

/-- A Start, with EN low, of the micro-op that `upc` names leaves a state with the invariants. -/
theorem start_inv {u : MicroOp} {s : State} (b : Byte) (hl : s.cfg.Legal) (hp : s.phase = .run) (hen : s.enQ = false)
    (hu : uop s.seq s.upc.toNat = some u) (hseq : s.initDoneQ = false ↔ s.seq = .init) : (start u b s).Inv := by
  have hlt : s.upc.toNat < len s.seq := uop_lt hu
  have hdone : s.initDoneQ = true → s.seq ≠ .init := fun htrue hinit => by simp [hseq.2 hinit] at htrue
  cases u with
  | nib r n =>
    obtain ⟨hone, hmax⟩ := legal_su hl
    exact ⟨by simp, fun _ => ⟨hone, hmax, hlt⟩, by simp [hp], fun h => ⟨hp, hseq.1 h⟩, by simp, fun _ => ⟨r, n, hu⟩,
      fun h => .inl (hdone h)⟩
  | wait k =>
    obtain ⟨hone, hmax⟩ := legal_count hl k
    exact ⟨by simp [hen], fun _ => ⟨hone, hmax, hlt⟩, by simp [hp], fun h => ⟨hp, hseq.1 h⟩, fun _ => ⟨k, hu⟩,
      by simp, fun h => .inl (hdone h)⟩

/-- In RUN `init_done_q` is 0 exactly while INIT runs (R37 items 4 and 6). -/
theorem initDoneQ_eq_false_iff {s : State} (hinv : s.Inv) (hp : s.phase = .run) : s.initDoneQ = false ↔ s.seq = .init := by
  refine ⟨fun h => (hinv.not_done h).2, fun hseq => ?_⟩
  by_contra hdone
  obtain hne | hidle := hinv.done_seq (by simpa using hdone)
  · exact hne hseq
  · simp [hp] at hidle

/-- RISE and FALL keep the invariants: within a NIB, its level of EN goes with its sub-phase. -/
theorem nib_inv {s : State} (hinv : s.Inv) (hp : s.phase = .run) (hnib : s.sub ≠ .wt) {e : Bool} {p : SubPhase} {n : Nat}
    (hwt : p ≠ .wt) (he : e = true ↔ p = .eh) (hn : 1 ≤ n ∧ n ≤ 2 ^ s.cfg.cntW - 1) :
    { s with enQ := e, sub := p, cnt := n }.Inv := by
  obtain ⟨-, -, hlt⟩ := hinv.run_bounds hp
  exact ⟨by simp [hp, he], fun _ => ⟨hn.1, hn.2, hlt⟩, hinv.idle_done, hinv.not_done, fun h => absurd h hwt,
    fun _ => hinv.nib_sub hnib, hinv.done_seq⟩

/-- Every arm but RESET keeps the invariants. -/
theorem arm_inv {s t : State} (hl : s.cfg.Legal) (hinv : s.Inv) (h : Arm s t) : t.Inv := by
  have hpop : s.popInput.Inv := inv_popInput hinv
  cases h with
  | accept i hp hacc =>
    obtain ⟨r, n, hu⟩ := uop_zero_request i
    have hlow : s.enQ = false := inv_enQ_low hinv (.inl hp)
    rw [acceptArm_eq_start hu]
    exact start_inv _ hl rfl hlow hu (by simp [hinv.idle_done hp, seqOf_ne_init i])
  | hold hp hacc => exact hpop
  | count hp hcnt =>
    obtain ⟨-, hmax, hlt⟩ := hinv.run_bounds hp
    refine ⟨hinv.en_iff, fun _ => ⟨?_, ?_, hlt⟩, hinv.idle_done, hinv.not_done, hinv.wt_wait, hinv.nib_sub, hinv.done_seq⟩
    · show 1 ≤ s.cnt - 1
      omega
    · show s.cnt - 1 ≤ 2 ^ s.cfg.cntW - 1
      omega
  | rise hp hcnt hsub => exact nib_inv hpop hp (by simp [hsub]) (by simp) (by simp) (legal_eh hl)
  | fall hp hcnt hsub => exact nib_inv hpop hp (by simp [hsub]) (by simp) (by simp) (legal_el hl)
  | next u hp hcnt hsub hu =>
    have hlow : s.enQ = false := inv_enQ_low hinv (.inr (ne_eh_of_low hsub))
    have hdone : s.initDoneQ = false ↔ s.seq = .init := initDoneQ_eq_false_iff hinv hp
    exact start_inv _ hl hp hlow ((congrArg (uop s.seq) (upc_succ hu)).trans hu) hdone
  | finish hp hcnt hsub hlast =>
    have hlow : s.enQ = false := inv_enQ_low hinv (.inr (by simp [hsub]))
    have hdone : (s.seq == .init || s.initDoneQ) = true := by
      cases hd : s.initDoneQ with
      | true => simp
      | false => simp [(hinv.not_done hd).2]
    exact ⟨by simp [hlow], by simp, fun _ => hdone, fun h => by simp [hdone] at h, hinv.wt_wait, hinv.nib_sub,
      fun _ => .inr rfl⟩

/-- Every edge keeps the invariants, for every input. -/
theorem step_inv {s t : State} (hinv : s.Inv) (h : step s = .next t) : t.Inv := by
  cases hrst : s.sample.rst with
  | true => exact (invariantsHoldAfterReset.2 s t hrst h).1
  | false => exact arm_inv (step_cases h).1 hinv (arm_of_step hinv hrst h)

/-- The first edge of a run that succeeds, and the run after it. -/
theorem edges_succ_inv {k : Nat} {s t : State} (h : edges (k + 1) s = .next t) :
    ∃ u, step s = .next u ∧ edges k u = .next t := by
  cases hs : step s with
  | next u => exact ⟨u, rfl, by rwa [edges_succ hs] at h⟩
  | fault r => simp [edges, hs] at h
  | refused r => simp [edges, hs] at h

theorem noReset_step {k : Nat} {s u : State} (h : step s = .next u) (hn : s.NoReset 0 (k + 1)) : u.NoReset 0 k :=
  noReset_edges ((edges_one s).trans h) (noReset_mono hn (Nat.zero_le _) (Nat.add_comm 1 k).le)

/-! ### A running program and the inputs (R57) -/

theorem sameRegisters_popInput {s t : State} (h : SameRegisters s t) : SameRegisters s.popInput t.popInput := h

theorem sameRegisters_phase {s t : State} (h : SameRegisters s t) : s.phase = t.phase :=
  (State.mk.inj h).2.1

/-- The running arms read registers alone, so they keep registers equal. -/
theorem sameRegisters_advance {s t : State} (h : SameRegisters s t) : SameRegisters (advance s) (advance t) :=
  calc { advance s with inputs := [] }
    _ = advance { s with inputs := [] } := (advance_inputs s []).symm
    _ = advance { t with inputs := [] } := congrArg advance h
    _ = { advance t with inputs := [] } := advance_inputs t []

/-- Settles O29, by induction on the number of edges: the next edge of both runs is the same arm of the running program. -/
theorem onlyResetDisturbsARunningProgram : Obligations.OnlyResetDisturbsARunningProgram := by
  unfold Obligations.OnlyResetDisturbsARunningProgram
  intro s ins k hl hs hins hrun
  induction k with
  | zero => exact ⟨_, _, rfl, rfl, rfl⟩
  | succ k ih =>
    obtain ⟨t, u, ht, hu, hsame⟩ := ih (noReset_mono hs le_rfl k.le_succ) (noReset_mono hins le_rfl k.le_succ)
      (fun j t hj => hrun j t (by omega))
    have htrun : t.phase = .run := hrun k t k.lt_succ_self ht
    have hurun : u.phase = .run := (sameRegisters_phase hsame).symm.trans htrun
    exact ⟨_, _, edges_snoc_run ht hl htrun (hs k k.zero_le k.lt_succ_self),
      edges_snoc_run hu hl hurun (hins k k.zero_le k.lt_succ_self),
      sameRegisters_advance (sameRegisters_popInput hsame)⟩

/-! ### The transfer of an edge (R51) -/

/-- COUNT leaves EN as it is. -/
theorem transferAt_countArm (s : State) : transferAt s (countArm s.popInput) = none := by
  simp [transferAt]

/-- FALL transfers the levels of RS and of the data lines, and the transfer is not an aborted one. -/
theorem transferAt_fallArm {s : State} (hinv : s.Inv) (hrst : s.sample.rst = false) (hp : s.phase = .run) (hsub : s.sub = .eh) :
    transferAt s (fallArm s.popInput) = some ⟨s.rsQ, s.dQ, false⟩ := by
  simp [transferAt, hinv.en_iff.2 ⟨hp, hsub⟩, hrst]

/-- Outside the enable-high sub-phase no edge transfers. -/
theorem transferAt_of_not_high {s : State} (hinv : s.Inv) (h : s.phase = .idle ∨ s.sub ≠ .eh) (t : State) :
    transferAt s t = none :=
  transferAt_of_low (inv_enQ_low hinv h)

/-! ### The transfers of the accepted requests (R58, R59) -/

/-- The transfer that the micro-op under way has still to make: a NIB's, up to its FALL. -/
def currentTransfer (s : State) : List Transfer :=
  match s.sub with
  | .su | .eh => [⟨s.rsQ, s.dQ, false⟩]
  | .el | .wt => []

theorem currentTransfer_low {s : State} (hsub : s.sub = .el ∨ s.sub = .wt) : currentTransfer s = [] := by
  rcases hsub with hsub | hsub <;> simp [currentTransfer, hsub]

theorem currentTransfer_nib {s : State} (hsub : s.sub = .su ∨ s.sub = .eh) : currentTransfer s = [⟨s.rsQ, s.dQ, false⟩] := by
  rcases hsub with hsub | hsub <;> simp [currentTransfer, hsub]

/-- The transfers of the entries of the program from entry `i` on. -/
def transfersFrom (s : State) (i : Nat) : List Transfer := ((program s.seq).drop i).flatMap (uopTransfers s.dreg)

/-- The transfers that the running program, not reset, has still to make. -/
def pendingTransfers (s : State) : List Transfer :=
  match s.phase with
  | .idle => []
  | .run => currentTransfer s ++ transfersFrom s (s.upc.toNat + 1)

theorem pendingTransfers_idle {s : State} (hp : s.phase = .idle) : pendingTransfers s = [] := by
  simp [pendingTransfers, hp]

theorem pendingTransfers_run {s : State} (hp : s.phase = .run) :
    pendingTransfers s = currentTransfer s ++ transfersFrom s (s.upc.toNat + 1) := by
  simp [pendingTransfers, hp]

theorem transfersFrom_eq_nil {s : State} {i : Nat} (h : len s.seq ≤ i) : transfersFrom s i = [] := by
  simp [transfersFrom, List.drop_eq_nil_of_le (show (program s.seq).length ≤ i from h)]

theorem transfersFrom_of_uop {s : State} {i : Nat} {u : MicroOp} (hu : uop s.seq i = some u) :
    transfersFrom s i = uopTransfers s.dreg u ++ transfersFrom s (i + 1) := by
  obtain ⟨hi, hget⟩ := List.getElem?_eq_some_iff.1 hu
  simp [transfersFrom, List.drop_eq_getElem_cons hi, hget]

/-- Start puts the transfer of its micro-op, as the listing gives it, on the bus. -/
theorem currentTransfer_start (u : MicroOp) (b : Byte) (s : State) : currentTransfer (start u b s) = uopTransfers b u := by
  cases u <;> rfl

theorem pendingTransfers_start {s : State} {u : MicroOp} (hp : s.phase = .run) (hu : uop s.seq s.upc.toNat = some u) :
    pendingTransfers (start u s.dreg s) = transfersFrom s s.upc.toNat := by
  rw [pendingTransfers_run (by simpa using hp), currentTransfer_start, transfersFrom_of_uop hu]
  simp [transfersFrom]

theorem pendingTransfers_accept (i : Instr) (s : State) : pendingTransfers (acceptArm (seqOf i) i.data s) = requestTransfers i := by
  obtain ⟨r, n, hu⟩ := uop_zero_request i
  rw [acceptArm_eq_start hu]
  exact pendingTransfers_start (s := { s with seq := seqOf i, dreg := i.data, phase := .run, upc := 0#5 }) rfl hu

theorem pendingTransfers_next {s : State} {u : MicroOp} (hp : s.phase = .run) (hu : uop s.seq (s.upc.toNat + 1) = some u) :
    pendingTransfers (nextArm u s) = transfersFrom s (s.upc.toNat + 1) := by
  have hupc : (s.upc + 1).toNat = s.upc.toNat + 1 := upc_succ hu
  rw [← hupc] at hu ⊢
  exact pendingTransfers_start (s := { s with upc := s.upc + 1 }) hp hu

theorem pendingTransfers_rise {s : State} (hp : s.phase = .run) (hsub : s.sub = .su) :
    pendingTransfers (riseArm s) = pendingTransfers s := by
  rw [pendingTransfers_run hp, currentTransfer_nib (.inl hsub)]
  exact pendingTransfers_run (s := riseArm s) hp

theorem pendingTransfers_fall {s : State} (hp : s.phase = .run) :
    pendingTransfers (fallArm s) = transfersFrom s (s.upc.toNat + 1) :=
  pendingTransfers_run (s := fallArm s) hp

/-- An edge without reset makes the first of the pending transfers at FALL and none elsewhere, and adds those of the request it
accepts. -/
theorem step_pendingTransfers {s t : State} (hinv : s.Inv) (hrst : s.sample.rst = false) (h : step s = .next t) :
    (transferAt s t).toList ++ pendingTransfers t = pendingTransfers s ++ (acceptedAt s).toList.flatMap requestTransfers := by
  cases arm_of_step hinv hrst h with
  | accept i hp hacc =>
    simp [transferAt_of_not_high hinv (.inl hp), pendingTransfers_accept, pendingTransfers_idle hp, hacc]
  | hold hp hacc =>
    have hpop : pendingTransfers s.popInput = pendingTransfers s := rfl
    simp [transferAt_of_not_high hinv (.inl hp), hpop, hacc]
  | count hp hcnt =>
    have hcount : pendingTransfers (countArm s.popInput) = pendingTransfers s := rfl
    simp [transferAt_countArm, hcount, acceptedAt_run hp]
  | rise hp hcnt hsub =>
    have hrise : pendingTransfers (riseArm s.popInput) = pendingTransfers s := pendingTransfers_rise (s := s.popInput) hp hsub
    simp [transferAt_of_not_high hinv (.inr (by simp [hsub])), hrise, acceptedAt_run hp]
  | fall hp hcnt hsub =>
    have hfall : pendingTransfers (fallArm s.popInput) = transfersFrom s (s.upc.toNat + 1) :=
      pendingTransfers_fall (s := s.popInput) hp
    simp [transferAt_fallArm hinv hrst hp hsub, hfall, pendingTransfers_run hp, currentTransfer_nib (.inr hsub),
      acceptedAt_run hp]
  | next u hp hcnt hsub hu =>
    have hnext : pendingTransfers (nextArm u s.popInput) = transfersFrom s (s.upc.toNat + 1) :=
      pendingTransfers_next (s := s.popInput) hp hu
    simp [transferAt_of_not_high hinv (.inr (ne_eh_of_low hsub)), hnext, pendingTransfers_run hp,
      currentTransfer_low hsub, acceptedAt_run hp]
  | finish hp hcnt hsub hlast =>
    have hnone : pendingTransfers s = [] := by
      rw [pendingTransfers_run hp, currentTransfer_low (.inr hsub), transfersFrom_eq_nil hlast.ge, List.nil_append]
    have hfinish : pendingTransfers (finishArm s.popInput) = [] := pendingTransfers_idle rfl
    simp [transferAt_of_not_high hinv (.inr (by simp [hsub])), hfinish, hnone, acceptedAt_run hp]

/-- The numbering of a trace does not touch its transfers. -/
theorem map_snd_traceFrom (i k : Nat) (s : State) : (traceFrom i k s).map Prod.snd = transfers k s := by
  unfold transfers trace
  generalize 0 = j
  induction k generalizing i j s with
  | zero => rfl
  | succ k ih =>
    cases hs : step s with
    | next u => simp [traceFrom_succ hs, ih (i + 1) u (j + 1)]
    | fault r => simp [traceFrom, hs]
    | refused r => simp [traceFrom, hs]

theorem transfers_succ {s u : State} (h : step s = .next u) (k : Nat) :
    transfers (k + 1) s = (transferAt s u).toList ++ transfers k u := by
  rw [← map_snd_traceFrom 0, traceFrom_succ h, List.map_append, map_snd_traceFrom]
  simp

/-- Along a run without reset the transfers made, and then those pending at its end, are those pending at its start, and then those
of the requests accepted. -/
theorem transfers_append_pendingTransfers {k : Nat} {s t : State} (hinv : s.Inv) (hn : s.NoReset 0 k) (h : edges k s = .next t) :
    transfers k s ++ pendingTransfers t = pendingTransfers s ++ (accepted k s).flatMap requestTransfers := by
  induction k generalizing s with
  | zero =>
    cases h
    simp [transfers, trace]
  | succ k ih =>
    obtain ⟨u, hu, hut⟩ := edges_succ_inv h
    have hnu : u.NoReset 0 k := noReset_step hu hn
    have hstep := step_pendingTransfers hinv (hn 0 le_rfl k.succ_pos) hu
    calc transfers (k + 1) s ++ pendingTransfers t
      _ = (transferAt s u).toList ++ (transfers k u ++ pendingTransfers t) := by rw [transfers_succ hu, List.append_assoc]
      _ = ((transferAt s u).toList ++ pendingTransfers u) ++ (accepted k u).flatMap requestTransfers := by
        rw [ih (step_inv hinv hu) hnu hut, List.append_assoc]
      _ = pendingTransfers s ++ (accepted (k + 1) s).flatMap requestTransfers := by
        rw [hstep, accepted_succ hu, List.flatMap_append, List.append_assoc]

/-- Settles O47: nothing is pending in IDLE, and what a request transfers is what its program's listing says. -/
theorem transfersAreThoseOfTheAcceptedRequests : Obligations.TransfersAreThoseOfTheAcceptedRequests := by
  unfold Obligations.TransfersAreThoseOfTheAcceptedRequests
  intro s t k hinv hs hn h ht
  have hrun := transfers_append_pendingTransfers hinv hn h
  rw [pendingTransfers_idle hs, pendingTransfers_idle ht, List.append_nil, List.nil_append] at hrun
  refine hrun.trans (List.flatMap_congr fun i _ => ?_)
  cases i <;> rfl

/-! ### The distance of two transfers (R59) -/

/-- The least number of edges, without reset, up to and including the next transfer: that of the NIB under way or, after its FALL,
that of a NIB started as soon as it can be. -/
def edgesToTransfer (s : State) : Nat :=
  match s.phase with
  | .idle => 1 + s.cfg.nSu + s.cfg.nEh
  | .run =>
    match s.sub with
    | .su => s.cnt + s.cfg.nEh
    | .eh => s.cnt
    | .el | .wt => s.cnt + s.cfg.nSu + s.cfg.nEh

theorem edgesToTransfer_idle {s : State} (hp : s.phase = .idle) : edgesToTransfer s = 1 + s.cfg.nSu + s.cfg.nEh := by
  simp [edgesToTransfer, hp]

theorem edgesToTransfer_su {s : State} (hp : s.phase = .run) (hsub : s.sub = .su) :
    edgesToTransfer s = s.cnt + s.cfg.nEh := by
  simp [edgesToTransfer, hp, hsub]

theorem edgesToTransfer_eh {s : State} (hp : s.phase = .run) (hsub : s.sub = .eh) : edgesToTransfer s = s.cnt := by
  simp [edgesToTransfer, hp, hsub]

theorem edgesToTransfer_low {s : State} (hp : s.phase = .run) (hsub : s.sub = .el ∨ s.sub = .wt) :
    edgesToTransfer s = s.cnt + s.cfg.nSu + s.cfg.nEh := by
  rcases hsub with hsub | hsub <;> simp [edgesToTransfer, hp, hsub]

theorem edgesToTransfer_accept (i : Instr) (b : Byte) (s : State) :
    edgesToTransfer (acceptArm (seqOf i) b s) = s.cfg.nSu + s.cfg.nEh := by
  obtain ⟨r, n, hu⟩ := uop_zero_request i
  rw [acceptArm_eq hu]
  rfl

theorem edgesToTransfer_count {s : State} (hp : s.phase = .run) (hcnt : 1 < s.cnt) :
    edgesToTransfer s = edgesToTransfer (countArm s) + 1 := by
  cases hsub : s.sub <;> simp [edgesToTransfer, hp, hsub] <;> omega

/-- After a Start no transfer comes before `N_SU + N_EH` edges are over. -/
theorem le_edgesToTransfer_start (u : MicroOp) (b : Byte) {s : State} (hp : s.phase = .run) :
    s.cfg.nSu + s.cfg.nEh ≤ edgesToTransfer (start u b s) := by
  cases u with
  | nib r n => simp [edgesToTransfer, hp]
  | wait k => simp [edgesToTransfer, hp]

theorem le_edgesToTransfer_next (u : MicroOp) {s : State} (hp : s.phase = .run) :
    s.cfg.nSu + s.cfg.nEh ≤ edgesToTransfer (nextArm u s) :=
  le_edgesToTransfer_start u s.dreg (s := { s with upc := s.upc + 1 }) hp

/-- An edge that transfers is the last of the distance, and the next one starts with the whole of EL. -/
theorem edgesToTransfer_of_transfer {s t : State} (hinv : s.Inv) (hrst : s.sample.rst = false) (h : step s = .next t)
    (htr : transferAt s t ≠ none) :
    edgesToTransfer s = 1 ∧ edgesToTransfer t = s.cfg.nEl + s.cfg.nSu + s.cfg.nEh := by
  have hhigh : s.phase = .run ∧ s.sub = .eh := by
    by_contra hlow
    exact htr (transferAt_of_low (by simpa [hlow] using hinv.en_iff))
  obtain ⟨hp, hsub⟩ := hhigh
  cases arm_of_step hinv hrst h with
  | fall _ hcnt _ => exact ⟨(edgesToTransfer_eh hp hsub).trans hcnt, edgesToTransfer_low hp (.inl rfl)⟩
  | count => exact absurd (transferAt_countArm s) htr
  | accept i hidle => simp [hp] at hidle
  | hold hidle => simp [hp] at hidle
  | rise _ _ hsu => simp [hsub] at hsu
  | next u _ _ hlow => simp [hsub] at hlow
  | finish _ _ hwt => simp [hsub] at hwt

/-- The distance shrinks by one edge at most. -/
theorem edgesToTransfer_le_succ {s t : State} (hinv : s.Inv) (hrst : s.sample.rst = false) (h : step s = .next t) :
    edgesToTransfer s ≤ edgesToTransfer t + 1 := by
  cases arm_of_step hinv hrst h with
  | accept i hp hacc =>
    rw [edgesToTransfer_idle hp, edgesToTransfer_accept, popInput_cfg]
    omega
  | hold hp hacc => exact Nat.le_succ (edgesToTransfer s)
  | count hp hcnt => exact (edgesToTransfer_count (s := s.popInput) hp hcnt).le
  | rise hp hcnt hsub =>
    have hrise : edgesToTransfer (riseArm s.popInput) = s.cfg.nEh := edgesToTransfer_eh (s := riseArm s.popInput) hp rfl
    rw [edgesToTransfer_su hp hsub, hrise, hcnt, Nat.add_comm]
  | fall hp hcnt hsub =>
    rw [edgesToTransfer_eh hp hsub, hcnt]
    omega
  | next u hp hcnt hsub hu =>
    have hle : s.cfg.nSu + s.cfg.nEh ≤ edgesToTransfer (nextArm u s.popInput) :=
      le_edgesToTransfer_next u (s := s.popInput) hp
    rw [edgesToTransfer_low hp hsub, hcnt]
    omega
  | finish hp hcnt hsub hlast =>
    rw [edgesToTransfer_low hp (.inr hsub), edgesToTransfer_idle rfl, hcnt, finishArm_cfg, popInput_cfg]
    omega

/-- No transfer of a trace comes before its distance is over. -/
theorem le_of_mem_traceFrom {i k : Nat} {s : State} {x : Nat × Transfer} (hl : s.cfg.Legal) (hinv : s.Inv) (hn : s.NoReset 0 k)
    (hx : x ∈ traceFrom i k s) : i + edgesToTransfer s ≤ x.1 + 1 := by
  induction k generalizing i s with
  | zero => simp at hx
  | succ k ih =>
    obtain ⟨u, hu⟩ := step_total hl
    have hrst : s.sample.rst = false := hn 0 le_rfl k.succ_pos
    rw [traceFrom_succ hu, List.mem_append] at hx
    obtain hnow | hlater := hx
    · obtain ⟨y, hy, rfl⟩ := List.mem_map.1 hnow
      have htr : transferAt s u ≠ none := fun hnone => by simp [hnone] at hy
      obtain ⟨hone, -⟩ := edgesToTransfer_of_transfer hinv hrst hu htr
      exact (congrArg (i + ·) hone).le
    · have hle := ih (by rwa [(step_frame hu).1]) (step_inv hinv hu) (noReset_step hu hn) hlater
      have hstep := edgesToTransfer_le_succ hinv hrst hu
      omega

/-- The later transfers of a trace are counted from the state after the first, in which EL starts. -/
theorem pairwise_traceFrom {k : Nat} {s : State} (i : Nat) (hl : s.cfg.Legal) (hinv : s.Inv) (hn : s.NoReset 0 k) :
    (traceFrom i k s).Pairwise (fun a b => a.1 + (s.cfg.nEl + s.cfg.nSu + s.cfg.nEh) ≤ b.1) := by
  induction k generalizing i s with
  | zero => simp
  | succ k ih =>
    obtain ⟨u, hu⟩ := step_total hl
    have hcfg : u.cfg = s.cfg := (step_frame hu).1
    have hlu : u.cfg.Legal := by rwa [hcfg]
    have hnu : u.NoReset 0 k := noReset_step hu hn
    have hlater := ih (i + 1) hlu (step_inv hinv hu) hnu
    rw [hcfg] at hlater
    rw [traceFrom_succ hu]
    cases htr : transferAt s u with
    | none => simpa using hlater
    | some x =>
      obtain ⟨-, hdist⟩ := edgesToTransfer_of_transfer hinv (hn 0 le_rfl k.succ_pos) hu (by simp [htr])
      refine List.pairwise_cons.2 ⟨fun y hy => ?_, hlater⟩
      have hle := le_of_mem_traceFrom hlu (step_inv hinv hu) hnu hy
      show i + _ ≤ y.1
      omega

/-- Settles O49, for a trace numbered from 0. -/
theorem transfersAreSpaced : Obligations.TransfersAreSpaced := by
  unfold Obligations.TransfersAreSpaced
  exact fun s k hl hinv hn => pairwise_traceFrom 0 hl hinv hn

end Sys2Proof.Proofs

/-! The encoding of requests (30_encoding.md): words, byte strings and the opcode table's numbering (O1, O2, O4, O5), the listings of
the programs (O9), and the word that is placed for the next edge (O17). -/

namespace Sys2Proof.Proofs

open Sys2Proof.Machine Sys2Proof.Laws

/-! ### Words (R70 to R74) -/

theorem decode_encode (i : Instr) : decode (encode i) = i := by
  simp [decode, encode]

theorem encode_decode (w : ReqWord) : encode (decode w) = w := by
  obtain ⟨hop, hdata⟩ := opOf_decodeFields (opField w) (dataField w)
  rw [encode, decode, hop, hdata, opField_append_dataField]

/-! ### Byte strings (log 7) -/

/-- The second byte of an encoding: the op in the two low bits, the six above it zero. -/
theorem extractLsb'_setWidth_op (op : BitVec 2) :
    (op.setWidth 8).extractLsb' 0 2 = op ∧ (op.setWidth 8).extractLsb' 2 6 = 0#6 := by
  revert op
  decide

/-- A byte whose six upper bits are zero is the op in its two low bits. -/
theorem setWidth_extractLsb'_op {b : Byte} (hup : b.extractLsb' 2 6 = 0#6) : (b.extractLsb' 0 2).setWidth 8 = b := by
  have hlt : b.toNat / 4 % 64 = 0 := by
    simpa [BitVec.extractLsb'_toNat, Nat.shiftRight_eq_div_pow] using congrArg BitVec.toNat hup
  apply BitVec.eq_of_toNat_eq
  simp only [BitVec.toNat_setWidth, BitVec.extractLsb'_toNat, Nat.shiftRight_zero]
  omega

theorem decodeBytes_cons_cons (lo hi : Byte) (rest : List Byte) :
    decodeBytes (lo :: hi :: rest) =
      if hi.extractLsb' 2 6 = 0#6 then .ok (decodeFields (hi.extractLsb' 0 2) lo, rest) else .error .bitsAboveWord := rfl

theorem decodeBytes_encodeBytes (i : Instr) (rest : List Byte) : decodeBytes (encodeBytes i ++ rest) = .ok (i, rest) := by
  obtain ⟨hop, hup⟩ := extractLsb'_setWidth_op (opOf i)
  show decodeBytes (i.data :: (opOf i).setWidth 8 :: rest) = _
  rw [decodeBytes_cons_cons, if_pos hup, hop, decodeFields_opOf]

theorem encodeBytes_decodeFields (op : BitVec 2) (b : Byte) : encodeBytes (decodeFields op b) = [b, op.setWidth 8] := by
  obtain ⟨hop, hdata⟩ := opOf_decodeFields op b
  rw [encodeBytes, hop, hdata]

/-- What the byte decoder does, by the string's length and the bits above the word. -/
theorem decodeBytes_cases (bs : List Byte) :
    (bs.length < 2 ∧ decodeBytes bs = .error .truncated) ∨
    (∃ lo hi rest, bs = lo :: hi :: rest ∧ hi.extractLsb' 2 6 ≠ 0#6 ∧ decodeBytes bs = .error .bitsAboveWord) ∨
    (∃ i rest, bs = encodeBytes i ++ rest ∧ decodeBytes bs = .ok (i, rest)) := by
  match bs with
  | [] => exact .inl ⟨by simp, rfl⟩
  | [_] => exact .inl ⟨by simp, rfl⟩
  | lo :: hi :: rest =>
    right
    by_cases hup : hi.extractLsb' 2 6 = 0#6
    · refine .inr ⟨decodeFields (hi.extractLsb' 0 2) lo, rest, ?_, by rw [decodeBytes_cons_cons, if_pos hup]⟩
      rw [encodeBytes_decodeFields, setWidth_extractLsb'_op hup]
      rfl
    · exact .inl ⟨lo, hi, rest, rfl, hup, by rw [decodeBytes_cons_cons, if_neg hup]⟩

theorem two_le_length_encodeBytes_append (i : Instr) (rest : List Byte) : 2 ≤ (encodeBytes i ++ rest).length := by
  simp [encodeBytes]

/-! ### The opcode table's numbering -/

/-- The two low bytes of a number hold the fields of its ten low bits. -/
theorem fields_ofNat (v : Nat) :
    opField (BitVec.ofNat 10 v) = (BitVec.ofNat 8 (v / 2 ^ 8)).extractLsb' 0 2 ∧ dataField (BitVec.ofNat 10 v) = BitVec.ofNat 8 v := by
  constructor <;> apply BitVec.eq_of_toNat_eq
  · simp only [opField, BitVec.extractLsb'_toNat, BitVec.toNat_ofNat, Nat.shiftRight_eq_div_pow]
    omega
  · simp only [dataField, BitVec.extractLsb'_toNat, BitVec.toNat_ofNat, Nat.shiftRight_eq_div_pow]
    omega

theorem upper_bits_ofNat_eq_zero_iff {v : Nat} (hv : v < 2 ^ 16) :
    (BitVec.ofNat 8 (v / 2 ^ 8)).extractLsb' 2 6 = 0#6 ↔ v < 2 ^ 10 := by
  rw [← BitVec.toNat_inj]
  simp only [BitVec.extractLsb'_toNat, BitVec.toNat_ofNat, Nat.shiftRight_eq_div_pow]
  omega

/-- A number in the table's numbering is a request exactly where it fits the word, and then the one its word decodes to. -/
theorem decodeTableWord_eq (nbits w : Nat) :
    decodeTableWord nbits w =
      if w % 2 ^ nbits < 2 ^ 10 then some (decode (BitVec.ofNat 10 (w % 2 ^ nbits))) else none := by
  unfold decodeTableWord
  generalize w % 2 ^ nbits = v
  obtain ⟨hop, hdata⟩ := fields_ofNat v
  by_cases h16 : v < 2 ^ 16
  · have hup := upper_bits_ofNat_eq_zero_iff h16
    by_cases h10 : v < 2 ^ 10
    · simp only [if_pos h16, if_pos h10, decodeBytes_cons_cons, if_pos (hup.2 h10), decode, hop, hdata]
    · simp only [if_pos h16, if_neg h10, decodeBytes_cons_cons, if_neg (mt hup.1 h10)]
  · have h10 : ¬ v < 2 ^ 10 := by omega
    simp only [if_neg h16, if_neg h10]

theorem decodeTableWord_encode (i : Instr) : decodeTableWord 16 (encode i).toNat = some i := by
  have hlt : (encode i).toNat < 2 ^ 10 := (encode i).isLt
  have hmod : (encode i).toNat % 2 ^ 16 = (encode i).toNat := Nat.mod_eq_of_lt (by omega)
  rw [decodeTableWord_eq, hmod, if_pos hlt, BitVec.ofNat_toNat, BitVec.setWidth_eq, decode_encode]

/-- Settles O1, one lemma for each carriage; every request is well formed. -/
theorem decodeAndEncodeAgree : Obligations.DecodeAndEncodeAgree := by
  unfold Obligations.DecodeAndEncodeAgree
  exact ⟨fun i rest _ => ⟨decode_encode i, decodeBytes_encodeBytes i rest, decodeTableWord_encode i⟩, encode_decode⟩

/-- Settles O4: the decoder's three cases exclude each other. -/
theorem byteStringDecodesOnlyAsACarriedWord : Obligations.ByteStringDecodesOnlyAsACarriedWord := by
  unfold Obligations.ByteStringDecodesOnlyAsACarriedWord
  refine ⟨fun bs i rest => ⟨fun h => ?_, ?_⟩, fun bs => ⟨fun h => ?_, fun h => ?_⟩, fun bs => ⟨fun h => ?_, ?_⟩⟩
  · obtain ⟨-, hd⟩ | ⟨lo, hi, rest', -, -, hd⟩ | ⟨i', rest', hbs, hd⟩ := decodeBytes_cases bs
    · simp [hd] at h
    · simp [hd] at h
    · rw [hd] at h; cases h; exact hbs
  · rintro rfl
    exact decodeBytes_encodeBytes i rest
  · obtain ⟨hlen, -⟩ | ⟨lo, hi, rest', -, -, hd⟩ | ⟨i', rest', -, hd⟩ := decodeBytes_cases bs
    · exact hlen
    · simp [hd] at h
    · simp [hd] at h
  · obtain ⟨-, hd⟩ | ⟨lo, hi, rest', rfl, -, -⟩ | ⟨i', rest', rfl, -⟩ := decodeBytes_cases bs
    · exact hd
    · simp at h
    · exact absurd h (two_le_length_encodeBytes_append i' rest').not_gt
  · obtain ⟨-, hd⟩ | ⟨lo, hi, rest', hbs, hup, -⟩ | ⟨i', rest', -, hd⟩ := decodeBytes_cases bs
    · simp [hd] at h
    · exact ⟨lo, hi, rest', hbs, hup⟩
    · simp [hd] at h
  · rintro ⟨lo, hi, rest, rfl, hup⟩
    rw [decodeBytes_cons_cons, if_neg hup]

/-! ### The opcode table and the spec's vectors -/

/-- Every encoding matches the one row of its mnemonic. -/
theorem tableMatch (i : Instr) : TableMatch.Statement i := by
  cases i with
  | cmd b => exact TableMatch.cmd b
  | char b => exact TableMatch.char b
  | clear x => exact TableMatch.clear x
  | home x => exact TableMatch.home x

/-- A request's program is the one its op selects (R113). -/
theorem seqOf_eq_opseq (i : Instr) : seqOf i = opseq (opOf i) := by
  cases i <;> rfl

/-- Settles O2: a word is the encoding of the request it decodes to. -/
theorem everyWordMatchesExactlyOneTableRow : Obligations.EveryWordMatchesExactlyOneTableRow := by
  unfold Obligations.EveryWordMatchesExactlyOneTableRow
  intro w
  obtain ⟨hop, hdata⟩ := opOf_decodeFields (opField w) (dataField w)
  refine ⟨?_, (seqOf_eq_opseq _).trans (congrArg opseq hop), hdata⟩
  have hrow : TableMatch.Statement (decode w) := tableMatch (decode w)
  rw [TableMatch.Statement, encode_decode] at hrow
  exact hrow

/-- Settles O5, each word by its two fields. -/
theorem specWordsDecodeToTheirRequests : Obligations.SpecWordsDecodeToTheirRequests := by
  unfold Obligations.SpecWordsDecodeToTheirRequests
  exact ⟨rfl, rfl, rfl, rfl, rfl, rfl, rfl, rfl, rfl⟩

/-- Settles O9: the listings are what `send_byte` expands to. -/
theorem programListingsAreThoseOfTheSpec : Obligations.ProgramListingsAreThoseOfTheSpec := by
  unfold Obligations.ProgramListingsAreThoseOfTheSpec
  exact ⟨rfl, rfl, rfl, rfl, rfl, rfl, rfl, rfl, rfl, rfl⟩

/-! ### The placed word (log 8) -/

/-- The ports present the request that the table's numbering gives. -/
theorem portAction_presentWord {nbits w : Nat} {i : Instr} (h : decodeTableWord nbits w = some i) :
    portAction (presentWord nbits w) = .request i := by
  rw [decodeTableWord_eq] at h
  split at h
  · cases h
    exact portAction_of_valid rfl rfl
  · cases h

theorem betweenPrograms_idle {s : State} (hp : s.phase = .idle) : betweenPrograms s = s := by
  simp [betweenPrograms, hp]

theorem betweenPrograms_phase (s : State) : (betweenPrograms s).phase = .idle := by
  cases hp : s.phase with
  | idle => rw [betweenPrograms_idle hp, hp]
  | run => simp [betweenPrograms, hp]

/-- The last entry of a program, a WAIT, is the one `upc` names after it (R25, R108). -/
theorem uop_ofNat_last (q : Seq) : ∃ k, uop q (BitVec.ofNat 5 (len q - 1)).toNat = some (.wait k) := by
  have hle : len q ≤ 23 := len_le q
  rw [BitVec.toNat_ofNat, Nat.mod_eq_of_lt (show len q - 1 < 2 ^ 5 by omega)]
  exact uop_last q

/-- A running program is left as its FINISH leaves it, with EN low. -/
theorem betweenPrograms_inv {s : State} (hinv : s.Inv) : (betweenPrograms s).Inv := by
  cases hp : s.phase with
  | idle => rwa [betweenPrograms_idle hp]
  | run =>
    have hwait := uop_ofNat_last s.seq
    simp only [betweenPrograms, hp]
    exact ⟨by simp, by simp, by simp, by simp, fun _ => hwait, fun h => absurd rfl h, fun _ => .inr rfl⟩

/-- Settles O17: the placed sample is the one the step takes. -/
theorem placedWordIsTheNextRequestRun : Obligations.PlacedWordIsTheNextRequestRun := by
  unfold Obligations.PlacedWordIsTheNextRequestRun
  intro s nbits w i h
  exact ⟨step_request (s := s.withFetchWord nbits w) (portAction_presentWord h), betweenPrograms_phase s, betweenPrograms_idle,
    fun hinv => inv_inputs (betweenPrograms_inv hinv) _⟩

end Sys2Proof.Proofs

/-! The assembler text (R80, R81, log 13): each line reads back from what is written for it (O6). -/

namespace Sys2Proof.Proofs

open Sys2Proof.Machine Sys2Proof.Laws

/-! ### Bytes -/

/-- A written digit reads back as its nibble. -/
theorem hexValue_hexChar (n : Nibble) : hexValue (hexChar n) = some n := by
  revert n
  decide

theorem parseByte_byteText (b : Byte) (rest : List Char) : parseByte (byteText b ++ rest) = some (b, rest) := by
  have hb : b.extractLsb' 4 4 ++ b.extractLsb' 0 4 = b :=
    BitVec.extractLsb'_append_extractLsb' (w := 4)
  simp [byteText, parseByte, hexValue_hexChar, hb]

/-! ### The text of a PRINT -/

/-- A byte is a character of its own number. -/
theorem toNat_charOfNat (b : Byte) : (Char.ofNat b.toNat).toNat = b.toNat := by
  have hlt : b.toNat < 2 ^ 8 := b.isLt
  have hvalid : b.toNat.isValidChar := .inl (by omega)
  rw [Char.toNat_ofNat, if_pos hvalid]

theorem ofNat_toNat_charOfNat (b : Byte) : BitVec.ofNat 8 (Char.ofNat b.toNat).toNat = b := by
  rw [toNat_charOfNat, BitVec.ofNat_toNat, BitVec.setWidth_eq]

theorem charOfNat_ne_quote {b : Byte} (hb : b ≠ 0x22#8) : Char.ofNat b.toNat ≠ '\x22' := by
  intro hc
  apply hb
  rw [← ofNat_toNat_charOfNat b, hc]
  rfl

/-- A writable literal is read up to its closing quote, by induction on its bytes. -/
theorem parseText_map {text : List Byte} (h : writable (.print text) = true) (rest : List Char) :
    parseText (text.map (fun b => Char.ofNat b.toNat) ++ '\x22' :: rest) = some (text, rest) := by
  induction text with
  | nil => rfl
  | cons b text ih =>
    simp only [writable, List.all_cons, Bool.and_eq_true, bne_iff_ne] at h ih
    obtain ⟨⟨hprint, hquote⟩, htext⟩ := h
    simp [parseText, charOfNat_ne_quote hquote, hprint, ih htext, ofNat_toNat_charOfNat]

/-! ### Lines -/

/-- A written line is read as its request, with nothing after it. -/
theorem parseRequest_lineText {l : AsmLine} (h : writable l = true) : parseRequest (lineText l) = some (l, []) := by
  cases l with
  | cmd b => exact congrArg (Option.map _) (parseByte_byteText b [])
  | char b => exact congrArg (Option.map _) (parseByte_byteText b [])
  | clear => rfl
  | home => rfl
  | print text => exact congrArg (Option.map _) (parseText_map h [])
  | reset => rfl

/-- A written line opens with its mnemonic: no space, and no comment. -/
theorem lineText_opens (l : AsmLine) : ∃ c cs, lineText l = c :: cs ∧ c ≠ ' ' ∧ c ≠ ';' := by
  cases l <;> exact ⟨_, _, rfl, by decide, by decide⟩

theorem parseLine_of_parseRequest {cs : List Char} {c : Char} {l : AsmLine} (hspace : c ≠ ' ') (hcomment : c ≠ ';')
    (h : parseRequest (c :: cs) = some (l, [])) : parseLine (c :: cs) = some (some l) := by
  simp [parseLine, lineEnds, skipSpaces, hspace, hcomment, h]

/-- The assembler writes what the disassembler shows of a canonical request. -/
theorem assembleLine_disassemble {i : Instr} (t : ResetTiming) (h : i.canonical = true) :
    assembleLine t (disassemble (encode i)) = [.request i] := by
  rw [disassemble, decode_encode]
  cases i with
  | cmd b => rfl
  | char b => rfl
  | clear x => rw [eq_of_beq h]; rfl
  | home x => rw [eq_of_beq h]; rfl

/-- Settles O6: a written line is neither empty nor a comment, and its request reads back with nothing left over. -/
theorem assemblerTextReadsBack : Obligations.AssemblerTextReadsBack := by
  unfold Obligations.AssemblerTextReadsBack
  refine ⟨fun l hl => ?_, fun i t hi => assembleLine_disassemble t hi⟩
  obtain ⟨c, cs, htext, hspace, hcomment⟩ := lineText_opens l
  have hread : parseRequest (lineText l) = some (l, []) := parseRequest_lineText hl
  rw [htext] at hread ⊢
  exact parseLine_of_parseRequest hspace hcomment hread

end Sys2Proof.Proofs

/-! The schedule of a run (R111, R112, R133): the edges a running program has left, the transfers it has still to make at their edges,
and what of both a run uses up that no reset and no acceptance disturbs. -/

namespace Sys2Proof.Proofs

open Sys2Proof.Machine Sys2Proof.Laws

/-! ### What ACCEPT keeps -/

@[simp] theorem acceptArm_cfg (q : Seq) (b : Byte) (s : State) : (acceptArm q b s).cfg = s.cfg := by
  unfold acceptArm; split <;> simp
@[simp] theorem acceptArm_inputs (q : Seq) (b : Byte) (s : State) : (acceptArm q b s).inputs = s.inputs := by
  unfold acceptArm; split <;> simp

/-- The state after an accept edge has the invariants. -/
theorem acceptArm_inv (i : Instr) {s : State} (hl : s.cfg.Legal) (hinv : s.Inv) (hp : s.phase = .idle) :
    (acceptArm (seqOf i) i.data s).Inv :=
  step_inv (s := s.pushInput (HostInput.present i)) (inv_inputs hinv _) (step_accept hl (portAction_present i) hp)

/-! ### The edges left to the micro-op under way and to its program -/

/-- The edges, without reset, up to and including the end of the micro-op under way. -/
def uopEdgesLeft (s : State) : Nat :=
  match s.sub with
  | .su => s.cnt + s.cfg.nEh + s.cfg.nEl
  | .eh => s.cnt + s.cfg.nEl
  | .el | .wt => s.cnt

theorem uopEdgesLeft_su {s : State} (hsub : s.sub = .su) : uopEdgesLeft s = s.cnt + s.cfg.nEh + s.cfg.nEl := by
  simp [uopEdgesLeft, hsub]

theorem uopEdgesLeft_eh {s : State} (hsub : s.sub = .eh) : uopEdgesLeft s = s.cnt + s.cfg.nEl := by
  simp [uopEdgesLeft, hsub]

theorem uopEdgesLeft_low {s : State} (hsub : s.sub = .el ∨ s.sub = .wt) : uopEdgesLeft s = s.cnt := by
  rcases hsub with hsub | hsub <;> simp [uopEdgesLeft, hsub]

/-- Start gives its micro-op the whole of its duration (R111). -/
theorem uopEdgesLeft_start (u : MicroOp) (b : Byte) (s : State) : uopEdgesLeft (start u b s) = duration s.cfg u := by
  cases u <;> rfl

theorem uopEdgesLeft_count {s : State} (hcnt : 1 < s.cnt) : uopEdgesLeft s = uopEdgesLeft (countArm s) + 1 := by
  cases hsub : s.sub <;> simp [uopEdgesLeft, hsub] <;> omega

/-- The cycles that the entries of the program from entry `i` on take. -/
def cyclesFrom (s : State) (i : Nat) : Nat := (((program s.seq).drop i).map (duration s.cfg)).sum

theorem cyclesFrom_eq_zero {s : State} {i : Nat} (h : len s.seq ≤ i) : cyclesFrom s i = 0 := by
  simp [cyclesFrom, List.drop_eq_nil_of_le (show (program s.seq).length ≤ i from h)]

theorem cyclesFrom_of_uop {s : State} {i : Nat} {u : MicroOp} (hu : uop s.seq i = some u) :
    cyclesFrom s i = duration s.cfg u + cyclesFrom s (i + 1) := by
  obtain ⟨hi, hget⟩ := List.getElem?_eq_some_iff.1 hu
  simp [cyclesFrom, List.drop_eq_getElem_cons hi, hget]

/-- The edges, without reset, up to and including the running program's FINISH. -/
def edgesLeft (s : State) : Nat :=
  match s.phase with
  | .idle => 0
  | .run => uopEdgesLeft s + cyclesFrom s (s.upc.toNat + 1)

theorem edgesLeft_idle {s : State} (hp : s.phase = .idle) : edgesLeft s = 0 := by
  simp [edgesLeft, hp]

theorem edgesLeft_run {s : State} (hp : s.phase = .run) :
    edgesLeft s = uopEdgesLeft s + cyclesFrom s (s.upc.toNat + 1) := by
  simp [edgesLeft, hp]

theorem edgesLeft_start {s : State} {u : MicroOp} (hp : s.phase = .run) (hu : uop s.seq s.upc.toNat = some u) (b : Byte) :
    edgesLeft (start u b s) = cyclesFrom s s.upc.toNat := by
  rw [edgesLeft_run (by simpa using hp), uopEdgesLeft_start, cyclesFrom_of_uop hu]
  simp [cyclesFrom]

theorem edgesLeft_next {s : State} {u : MicroOp} (hp : s.phase = .run) (hu : uop s.seq (s.upc.toNat + 1) = some u) :
    edgesLeft (nextArm u s) = cyclesFrom s (s.upc.toNat + 1) := by
  have hupc : (s.upc + 1).toNat = s.upc.toNat + 1 := upc_succ hu
  rw [← hupc] at hu ⊢
  exact edgesLeft_start (s := { s with upc := s.upc + 1 }) hp hu s.dreg

/-- From its accept edge a request's program has its whole latency left (R112). -/
theorem edgesLeft_accept (i : Instr) (b : Byte) (s : State) :
    edgesLeft (acceptArm (seqOf i) b s) = latency s.cfg (seqOf i) := by
  obtain ⟨r, n, hu⟩ := uop_zero_request i
  rw [acceptArm_eq_start hu]
  exact edgesLeft_start (s := { s with seq := seqOf i, dreg := b, phase := .run, upc := 0#5 }) rfl hu b

/-- The reset state is INIT's first WAIT as Start leaves it (R101). -/
theorem resetOf_eq_start (c : Config) : State.resetOf c = start (.wait .powerup) 0x00#8 (State.resetOf c) := rfl

theorem edgesLeft_resetOf (c : Config) : edgesLeft (State.resetOf c) = latency c .init := by
  rw [resetOf_eq_start]
  exact edgesLeft_start (s := State.resetOf c) rfl rfl _

/-- An edge within a micro-op takes one edge from what its program has left. -/
theorem edgesLeft_within {s t : State} (hs : s.phase = .run) (ht : t.phase = .run)
    (hrest : cyclesFrom t (t.upc.toNat + 1) = cyclesFrom s (s.upc.toNat + 1)) (huop : uopEdgesLeft s = uopEdgesLeft t + 1) :
    edgesLeft s = edgesLeft t + 1 := by
  rw [edgesLeft_run hs, edgesLeft_run ht, hrest, huop]
  omega

/-- RISE and FALL end a sub-phase of the micro-op under way. -/
theorem uopEdgesLeft_rise {s : State} (hcnt : s.cnt = 1) (hsub : s.sub = .su) :
    uopEdgesLeft s = uopEdgesLeft (riseArm s) + 1 := by
  rw [uopEdgesLeft_su hsub, uopEdgesLeft_eh (s := riseArm s) rfl, hcnt, riseArm_cnt, riseArm_cfg]
  omega

theorem uopEdgesLeft_fall {s : State} (hcnt : s.cnt = 1) (hsub : s.sub = .eh) :
    uopEdgesLeft s = uopEdgesLeft (fallArm s) + 1 := by
  rw [uopEdgesLeft_eh hsub, uopEdgesLeft_low (s := fallArm s) (.inl rfl), hcnt, fallArm_cnt]
  omega

/-- While a program runs, every edge without reset is one of those it has left. -/
theorem edgesLeft_step {s t : State} (hinv : s.Inv) (hrst : s.sample.rst = false) (hp : s.phase = .run) (h : step s = .next t) :
    edgesLeft s = edgesLeft t + 1 := by
  cases arm_of_step hinv hrst h with
  | accept i hidle => simp [hp] at hidle
  | hold hidle => simp [hp] at hidle
  | count _ hcnt => exact edgesLeft_within hp hp rfl (uopEdgesLeft_count (s := s.popInput) hcnt)
  | rise _ hcnt hsub => exact edgesLeft_within hp hp rfl (uopEdgesLeft_rise (s := s.popInput) hcnt hsub)
  | fall _ hcnt hsub => exact edgesLeft_within hp hp rfl (uopEdgesLeft_fall (s := s.popInput) hcnt hsub)
  | next u _ hcnt hsub hu =>
    have hnext : edgesLeft (nextArm u s.popInput) = cyclesFrom s (s.upc.toNat + 1) := edgesLeft_next (s := s.popInput) hp hu
    rw [edgesLeft_run hp, uopEdgesLeft_low hsub, hcnt, hnext, Nat.add_comm]
  | finish _ hcnt hsub hlast =>
    rw [edgesLeft_run hp, uopEdgesLeft_low (.inr hsub), hcnt, cyclesFrom_eq_zero hlast.ge, edgesLeft_idle rfl]

theorem uopEdgesLeft_pos {s : State} (hinv : s.Inv) (hp : s.phase = .run) : 0 < uopEdgesLeft s := by
  obtain ⟨hone, -, -⟩ := hinv.run_bounds hp
  cases hsub : s.sub <;> simp [uopEdgesLeft, hsub] <;> omega

/-- No edge is left exactly in IDLE. -/
theorem edgesLeft_eq_zero_iff {s : State} (hinv : s.Inv) : edgesLeft s = 0 ↔ s.phase = .idle := by
  refine ⟨fun h => ?_, edgesLeft_idle⟩
  cases hp : s.phase with
  | idle => rfl
  | run =>
    have hpos := uopEdgesLeft_pos hinv hp
    rw [edgesLeft_run hp] at h
    omega

/-! ### The transfers left, at their edges -/

/-- The schedule of the entries of the program from entry `i` on, entry `i` being loaded at edge `e`. -/
def scheduleFrom (e : Nat) (s : State) (i : Nat) : List (Nat × Transfer) :=
  schedule s.cfg s.dreg e ((program s.seq).drop i)

theorem scheduleFrom_eq_nil {e : Nat} {s : State} {i : Nat} (h : len s.seq ≤ i) : scheduleFrom e s i = [] := by
  simp [scheduleFrom, List.drop_eq_nil_of_le (show (program s.seq).length ≤ i from h), schedule]

theorem scheduleFrom_of_uop (e : Nat) {s : State} {i : Nat} {u : MicroOp} (hu : uop s.seq i = some u) :
    scheduleFrom e s i =
      (uopTransfers s.dreg u).map (fun x => (e + s.cfg.nSu + s.cfg.nEh, x)) ++
        scheduleFrom (e + duration s.cfg u) s (i + 1) := by
  obtain ⟨hi, hget⟩ := List.getElem?_eq_some_iff.1 hu
  simp [scheduleFrom, List.drop_eq_getElem_cons hi, hget, schedule]

/-- No transfer of a schedule comes before its first setup and enable-high hold are over. -/
theorem le_of_mem_schedule {c : Config} {b : Byte} {e : Nat} {us : List MicroOp} {x : Nat × Transfer}
    (hx : x ∈ schedule c b e us) : e + c.nSu + c.nEh ≤ x.1 := by
  induction us generalizing e with
  | nil => simp [schedule] at hx
  | cons u us ih =>
    obtain hnow | hlater := List.mem_append.1 hx
    · obtain ⟨y, -, rfl⟩ := List.mem_map.1 hnow
      exact le_rfl
    · have hle := ih hlater
      omega

/-- The transfers that the running program, not reset, has still to make, each with its edge, `s` being the state after edge `e`. -/
def pendingSchedule (e : Nat) (s : State) : List (Nat × Transfer) :=
  match s.phase with
  | .idle => []
  | .run =>
    (currentTransfer s).map (fun x => (e + edgesToTransfer s, x)) ++ scheduleFrom (e + uopEdgesLeft s) s (s.upc.toNat + 1)

theorem pendingSchedule_idle {s : State} (hp : s.phase = .idle) (e : Nat) : pendingSchedule e s = [] := by
  simp [pendingSchedule, hp]

theorem pendingSchedule_run {s : State} (hp : s.phase = .run) (e : Nat) :
    pendingSchedule e s =
      (currentTransfer s).map (fun x => (e + edgesToTransfer s, x)) ++ scheduleFrom (e + uopEdgesLeft s) s (s.upc.toNat + 1) := by
  simp [pendingSchedule, hp]

/-- In EL and in WT only the entries that follow have transfers to make. -/
theorem pendingSchedule_low {s : State} (hp : s.phase = .run) (hsub : s.sub = .el ∨ s.sub = .wt) (e : Nat) :
    pendingSchedule e s = scheduleFrom (e + s.cnt) s (s.upc.toNat + 1) := by
  rw [pendingSchedule_run hp, currentTransfer_low hsub, uopEdgesLeft_low hsub, List.map_nil, List.nil_append]

/-- In SU and in EH the transfer of the NIB under way comes first. -/
theorem pendingSchedule_nib {s : State} (hp : s.phase = .run) (hsub : s.sub = .su ∨ s.sub = .eh) (e : Nat) :
    pendingSchedule e s =
      (e + edgesToTransfer s, ⟨s.rsQ, s.dQ, false⟩) :: scheduleFrom (e + uopEdgesLeft s) s (s.upc.toNat + 1) := by
  rw [pendingSchedule_run hp, currentTransfer_nib hsub, List.map_singleton, List.singleton_append]

theorem pendingSchedule_start {s : State} {u : MicroOp} (hp : s.phase = .run) (hu : uop s.seq s.upc.toNat = some u) (e : Nat) :
    pendingSchedule e (start u s.dreg s) = scheduleFrom e s s.upc.toNat := by
  rw [pendingSchedule_run (by simpa using hp), currentTransfer_start, uopEdgesLeft_start, scheduleFrom_of_uop e hu]
  cases u with
  | nib r n =>
    have hdist : edgesToTransfer (start (.nib r n) s.dreg s) = s.cfg.nSu + s.cfg.nEh := edgesToTransfer_su hp rfl
    rw [hdist, Nat.add_assoc]
    rfl
  | wait k => rfl

theorem pendingSchedule_next {s : State} {u : MicroOp} (hp : s.phase = .run) (hu : uop s.seq (s.upc.toNat + 1) = some u)
    (e : Nat) : pendingSchedule e (nextArm u s) = scheduleFrom e s (s.upc.toNat + 1) := by
  have hupc : (s.upc + 1).toNat = s.upc.toNat + 1 := upc_succ hu
  rw [← hupc] at hu ⊢
  exact pendingSchedule_start (s := { s with upc := s.upc + 1 }) hp hu e

/-- From its accept edge a request has the whole schedule of its program to make (R133). -/
theorem pendingSchedule_accept (i : Instr) (s : State) (e : Nat) :
    pendingSchedule e (acceptArm (seqOf i) i.data s) = schedule s.cfg i.data e (program (seqOf i)) := by
  obtain ⟨r, n, hu⟩ := uop_zero_request i
  rw [acceptArm_eq_start hu]
  exact pendingSchedule_start (s := { s with seq := seqOf i, dreg := i.data, phase := .run, upc := 0#5 }) rfl hu e

theorem pendingSchedule_resetOf (c : Config) (e : Nat) :
    pendingSchedule e (State.resetOf c) = schedule c 0x00#8 e (program .init) := by
  rw [resetOf_eq_start]
  exact pendingSchedule_start (s := State.resetOf c) rfl rfl e

/-- The next transfer comes no later than that of a NIB loaded where the micro-op under way ends. -/
theorem edgesToTransfer_le {s : State} (hp : s.phase = .run) :
    edgesToTransfer s ≤ uopEdgesLeft s + s.cfg.nSu + s.cfg.nEh := by
  cases hsub : s.sub with
  | su => rw [edgesToTransfer_su hp hsub, uopEdgesLeft_su hsub]; omega
  | eh => rw [edgesToTransfer_eh hp hsub, uopEdgesLeft_eh hsub]; omega
  | el => rw [edgesToTransfer_low hp (.inl hsub), uopEdgesLeft_low (.inl hsub)]
  | wt => rw [edgesToTransfer_low hp (.inr hsub), uopEdgesLeft_low (.inr hsub)]

/-- No pending transfer comes before its distance is over. -/
theorem le_of_mem_pendingSchedule {e : Nat} {s : State} {x : Nat × Transfer} (hx : x ∈ pendingSchedule e s) :
    e + edgesToTransfer s ≤ x.1 := by
  cases hp : s.phase with
  | idle => simp [pendingSchedule_idle hp] at hx
  | run =>
    rw [pendingSchedule_run hp] at hx
    obtain hnow | hlater := List.mem_append.1 hx
    · obtain ⟨y, -, rfl⟩ := List.mem_map.1 hnow
      exact le_rfl
    · have hle := le_of_mem_schedule hlater
      have hdist := edgesToTransfer_le hp
      omega

/-- An edge within a micro-op brings what is left one edge nearer. -/
theorem pendingSchedule_within {s t : State} (hs : s.phase = .run) (ht : t.phase = .run)
    (hcur : currentTransfer s = currentTransfer t) (hdist : edgesToTransfer s = edgesToTransfer t + 1)
    (huop : uopEdgesLeft s = uopEdgesLeft t + 1)
    (hrest : ∀ e, scheduleFrom e s (s.upc.toNat + 1) = scheduleFrom e t (t.upc.toNat + 1)) (e : Nat) :
    pendingSchedule e s = pendingSchedule (e + 1) t := by
  have hshift : ∀ n, e + (n + 1) = e + 1 + n := fun n => by omega
  rw [pendingSchedule_run hs, pendingSchedule_run ht, hcur, hdist, huop, hrest, hshift (uopEdgesLeft t),
    hshift (edgesToTransfer t)]

theorem edgesToTransfer_rise {s : State} (hp : s.phase = .run) (hcnt : s.cnt = 1) (hsub : s.sub = .su) :
    edgesToTransfer s = edgesToTransfer (riseArm s) + 1 := by
  rw [edgesToTransfer_su hp hsub, edgesToTransfer_eh (s := riseArm s) hp rfl, hcnt, riseArm_cnt, Nat.add_comm]

theorem currentTransfer_rise {s : State} (hsub : s.sub = .su) : currentTransfer s = currentTransfer (riseArm s) :=
  currentTransfer_nib (.inl hsub)

/-- An edge with neither reset nor acceptance makes the pending transfer of its own number, if there is one. -/
theorem pendingSchedule_step {s t : State} (hinv : s.Inv) (hrst : s.sample.rst = false) (hacc : acceptedAt s = none)
    (h : step s = .next t) (e : Nat) :
    pendingSchedule e s = (transferAt s t).toList.map (fun x => (e + 1, x)) ++ pendingSchedule (e + 1) t := by
  cases arm_of_step hinv hrst h with
  | accept i hp hi => simp [hacc] at hi
  | hold hp _ => simp [pendingSchedule_idle hp, transferAt_of_not_high hinv (.inl hp), pendingSchedule_idle (s := s.popInput) hp]
  | count hp hcnt =>
    rw [transferAt_countArm]
    exact pendingSchedule_within (t := countArm s.popInput) hp hp rfl (edgesToTransfer_count (s := s.popInput) hp hcnt)
      (uopEdgesLeft_count (s := s.popInput) hcnt) (fun _ => rfl) e
  | rise hp hcnt hsub =>
    rw [transferAt_of_not_high hinv (.inr (by simp [hsub]))]
    exact pendingSchedule_within (t := riseArm s.popInput) hp hp (currentTransfer_rise (s := s.popInput) hsub)
      (edgesToTransfer_rise (s := s.popInput) hp hcnt hsub) (uopEdgesLeft_rise (s := s.popInput) hcnt hsub) (fun _ => rfl) e
  | fall hp hcnt hsub =>
    rw [transferAt_fallArm hinv hrst hp hsub, pendingSchedule_nib hp (.inr hsub), edgesToTransfer_eh hp hsub, uopEdgesLeft_eh hsub,
      hcnt, pendingSchedule_low (s := fallArm s.popInput) hp (.inl rfl), ← Nat.add_assoc]
    rfl
  | next u hp hcnt hsub hu =>
    have hnext : pendingSchedule (e + 1) (nextArm u s.popInput) = scheduleFrom (e + 1) s (s.upc.toNat + 1) :=
      pendingSchedule_next (s := s.popInput) hp hu (e + 1)
    rw [transferAt_of_not_high hinv (.inr (ne_eh_of_low hsub)), hnext, pendingSchedule_low hp hsub, hcnt]
    rfl
  | finish hp hcnt hsub hlast =>
    rw [transferAt_of_not_high hinv (.inr (by simp [hsub])), pendingSchedule_low hp (.inr hsub), scheduleFrom_eq_nil hlast.ge,
      pendingSchedule_idle rfl]
    rfl

/-! ### The enable-high count -/

/-- In EH no more than `N_EH` edges are left of the sub-phase. -/
def HighInTime (s : State) : Prop := s.sub = .eh → s.cnt ≤ s.cfg.nEh

theorem highInTime_of_ne {s : State} (h : s.sub ≠ .eh) : HighInTime s := fun heh => absurd heh h

theorem highInTime_start (u : MicroOp) (b : Byte) (s : State) : HighInTime (start u b s) :=
  highInTime_of_ne (by cases u <;> simp)

theorem highInTime_accept (i : Instr) (b : Byte) (s : State) : HighInTime (acceptArm (seqOf i) b s) := by
  obtain ⟨r, n, hu⟩ := uop_zero_request i
  rw [acceptArm_eq_start hu]
  exact highInTime_start _ _ _

/-- RISE loads `N_EH` and COUNT counts it down; the other arms leave EH or are not in it. -/
theorem highInTime_step {s t : State} (hinv : s.Inv) (hrst : s.sample.rst = false) (h : step s = .next t) (hhigh : HighInTime s) :
    HighInTime t := by
  cases arm_of_step hinv hrst h with
  | accept i => exact highInTime_accept i i.data s.popInput
  | hold => exact hhigh
  | count => exact fun heh => (Nat.sub_le _ _).trans (hhigh heh)
  | rise => exact fun _ => le_rfl
  | fall => exact highInTime_of_ne (by simp)
  | next u => exact highInTime_start u _ _
  | finish _ _ hsub => exact highInTime_of_ne (by simp [hsub])

/-- The transfer a reset edge aborts: that of EN high, with the levels of the cycle before (R52, R221). -/
def abortedTransfer (s : State) : List Transfer := if s.enQ then [⟨s.rsQ, s.dQ, true⟩] else []

theorem transferAt_resetArm {s : State} (hrst : s.sample.rst = true) :
    (transferAt s (resetArm s.popInput)).toList = abortedTransfer s := by
  cases hen : s.enQ <;> simp [transferAt, abortedTransfer, hen, hrst]

/-- While EN is low the next transfer is more than `N_EH` edges away. -/
theorem high_lt_edgesToTransfer {s : State} (hinv : s.Inv) (hen : s.enQ = false) : s.cfg.nEh < edgesToTransfer s := by
  cases hp : s.phase with
  | idle =>
    rw [edgesToTransfer_idle hp]
    omega
  | run =>
    obtain ⟨hone, -, -⟩ := hinv.run_bounds hp
    cases hsub : s.sub with
    | su => rw [edgesToTransfer_su hp hsub]; omega
    | eh => simp [hinv.en_iff.2 ⟨hp, hsub⟩] at hen
    | el => rw [edgesToTransfer_low hp (.inl hsub)]; omega
    | wt => rw [edgesToTransfer_low hp (.inr hsub)]; omega

/-- Of the transfers left after edge `e` those in the `N_EH` edges from edge `e + 1` on are the one that a reset at edge `e + 1`
aborts: EN has risen for no other, since a NIB is high for `N_EH` cycles. -/
theorem pendingSchedule_filter_high {s : State} (hinv : s.Inv) (hhigh : HighInTime s) (e : Nat) :
    ((pendingSchedule e s).filter (fun x => x.1 < e + 1 + s.cfg.nEh)).map (fun x => (e + 1, { x.2 with aborted := true })) =
      (abortedTransfer s).map (fun x => (e + 1, x)) := by
  cases hen : s.enQ with
  | false =>
    have hdist := high_lt_edgesToTransfer hinv hen
    have hnone : (pendingSchedule e s).filter (fun x => x.1 < e + 1 + s.cfg.nEh) = [] := by
      refine List.filter_eq_nil_iff.2 fun x hx => ?_
      have hle := le_of_mem_pendingSchedule hx
      simp only [decide_eq_true_eq]
      omega
    simp [hnone, abortedTransfer, hen]
  | true =>
    obtain ⟨hp, hsub⟩ := hinv.en_iff.1 hen
    obtain ⟨hone, -, -⟩ := hinv.run_bounds hp
    have hnow : e + s.cnt < e + 1 + s.cfg.nEh := by
      have hle := hhigh hsub
      omega
    have hlater :
        (scheduleFrom (e + (s.cnt + s.cfg.nEl)) s (s.upc.toNat + 1)).filter (fun x => x.1 < e + 1 + s.cfg.nEh) = [] := by
      refine List.filter_eq_nil_iff.2 fun x hx => ?_
      have hle := le_of_mem_schedule hx
      simp only [decide_eq_true_eq]
      omega
    rw [pendingSchedule_nib hp (.inr hsub), edgesToTransfer_eh hp hsub, uopEdgesLeft_eh hsub,
      List.filter_cons_of_pos (by simpa using hnow), hlater]
    simp [abortedTransfer, hen]

/-! ### Runs that nothing disturbs -/

/-- A run of some edges, none of which samples a reset or accepts a request. -/
inductive Undisturbed : Nat → State → State → Prop
  | zero (s : State) : Undisturbed 0 s s
  | succ {k : Nat} {s u t : State} : step s = .next u → s.sample.rst = false → acceptedAt s = none → Undisturbed k u t →
      Undisturbed (k + 1) s t

theorem Undisturbed.edges {k : Nat} {s t : State} (h : Undisturbed k s t) : edges k s = .next t := by
  induction h with
  | zero s => rfl
  | succ hstep _ _ _ ih => rwa [edges_succ hstep]

theorem Undisturbed.accepted {k : Nat} {s t : State} (h : Undisturbed k s t) : accepted k s = [] := by
  induction h with
  | zero s => rfl
  | succ hstep _ hacc _ ih => rw [accepted_succ hstep, hacc, ih]; rfl

theorem Undisturbed.inv {k : Nat} {s t : State} (h : Undisturbed k s t) (hinv : s.Inv) : t.Inv := by
  induction h with
  | zero s => exact hinv
  | succ hstep _ _ _ ih => exact ih (step_inv hinv hstep)

theorem Undisturbed.highInTime {k : Nat} {s t : State} (h : Undisturbed k s t) (hinv : s.Inv) (hhigh : HighInTime s) :
    HighInTime t := by
  induction h with
  | zero s => exact hhigh
  | succ hstep hrst _ _ ih => exact ih (step_inv hinv hstep) (highInTime_step hinv hrst hstep hhigh)

/-- Only reset and acceptance write `seq` and `dreg`. -/
theorem Undisturbed.keeps {k : Nat} {s t : State} (h : Undisturbed k s t) : t.seq = s.seq ∧ t.dreg = s.dreg := by
  induction h with
  | zero s => exact ⟨rfl, rfl⟩
  | succ hstep hrst hacc _ ih =>
    obtain ⟨-, -, hseq⟩ := step_seq hstep
    obtain ⟨-, -, hdreg⟩ := dataRegisterIsWrittenOnlyAtAcceptAndReset _ _ hstep
    exact ⟨ih.1.trans (hseq hrst hacc), ih.2.trans (hdreg hrst hacc)⟩

/-- The transfers pending at the start of the run are those it makes and then those pending at its end. -/
theorem Undisturbed.pending {k : Nat} {s t : State} (h : Undisturbed k s t) (hinv : s.Inv) (e : Nat) :
    pendingSchedule e s = traceFrom (e + 1) k s ++ pendingSchedule (e + k) t := by
  induction h generalizing e with
  | zero s => rfl
  | @succ k s u t hstep hrst hacc _ ih =>
    have hshift : e + 1 + k = e + (k + 1) := by omega
    rw [pendingSchedule_step hinv hrst hacc hstep, ih (step_inv hinv hstep), traceFrom_succ hstep, List.append_assoc, hshift]

theorem mem_traceFrom_bounds {i k : Nat} {s : State} {x : Nat × Transfer} (hx : x ∈ traceFrom i k s) : i ≤ x.1 ∧ x.1 < i + k := by
  induction k generalizing i s with
  | zero => simp at hx
  | succ k ih =>
    cases hs : step s with
    | next u =>
      rw [traceFrom_succ hs] at hx
      obtain hnow | hlater := List.mem_append.1 hx
      · obtain ⟨y, -, rfl⟩ := List.mem_map.1 hnow
        exact ⟨le_rfl, by omega⟩
      · have hbounds := ih hlater
        omega
    | fault r => simp [traceFrom, hs] at hx
    | refused r => simp [traceFrom, hs] at hx

/-- While EN is low no transfer is due at the next edge; while it is high, at least one edge is left. -/
theorem edgesToTransfer_pos {s : State} (hinv : s.Inv) : 0 < edgesToTransfer s := by
  cases hen : s.enQ with
  | false => exact Nat.zero_lt_of_lt (high_lt_edgesToTransfer hinv hen)
  | true =>
    obtain ⟨hp, hsub⟩ := hinv.en_iff.1 hen
    rw [edgesToTransfer_eh hp hsub]
    exact (hinv.run_bounds hp).1

/-- A run that nothing disturbs makes the pending transfers of its edges and leaves those of the later edges. -/
theorem Undisturbed.filter_pending {k : Nat} {s t : State} (h : Undisturbed k s t) (hinv : s.Inv) (e : Nat) :
    traceFrom (e + 1) k s = (pendingSchedule e s).filter (fun x => x.1 < e + k + 1) ∧
      pendingSchedule (e + k) t = (pendingSchedule e s).filter (fun x => e + k + 1 ≤ x.1) := by
  have hmade : ∀ x ∈ traceFrom (e + 1) k s, x.1 < e + k + 1 := fun x hx => by
    have hbounds := mem_traceFrom_bounds hx
    omega
  have hleft : ∀ x ∈ pendingSchedule (e + k) t, e + k + 1 ≤ x.1 := fun x hx => by
    have hle := le_of_mem_pendingSchedule hx
    have hpos := edgesToTransfer_pos (h.inv hinv)
    omega
  rw [h.pending hinv, List.filter_append, List.filter_append, List.filter_eq_self.2 (by simpa using hmade),
    List.filter_eq_nil_iff.2 (by simpa using hleft), List.filter_eq_nil_iff.2 (by simpa using hmade),
    List.filter_eq_self.2 (by simpa using hleft)]
  simp

end Sys2Proof.Proofs

/-! Stretches of edges on the eager host (R82), and the program with a RESET line (O52). -/

namespace Sys2Proof.Proofs

open Sys2Proof.Machine Sys2Proof.Laws

/-! ### Stretches of edges -/

/-- A TC on the eager host: what the host has still to do, and the state of the TC. -/
structure OnHost where
  acts : List HostAction
  tc : State

/-- The TC at the host's next edge, with that edge's sample alone. -/
def OnHost.facing (h : OnHost) : State := { h.tc with inputs := [eagerSample h.acts] }

/-- The TC attached to the host for `m` edges. -/
def OnHost.attached (m : Nat) (h : OnHost) : State := eagerStart m h.acts h.tc

/-- `k` edges on the eager host lead from `g` to `h`. They make the transfers `tr`, the first edge being numbered `i`, and accept the
requests `acc`; the program does not end in them. Nothing of it depends on how long the host stays attached after them. -/
structure EagerRun (i k : Nat) (g h : OnHost) (tr : List (Nat × Transfer)) (acc : List Instr) : Prop where
  edges : ∀ m, edges k (g.attached (k + m)) = .next (h.attached m)
  trace : ∀ m, traceFrom i k (g.attached (k + m)) = tr
  accepted : ∀ m, accepted k (g.attached (k + m)) = acc
  endState : ∀ m, endState (k + m) g.acts g.tc = endState m h.acts h.tc

/-- Stretches of edges compose where their numbers do. -/
theorem EagerRun.trans {i i' k l : Nat} {g h j : OnHost} {tr tr' : List (Nat × Transfer)} {acc acc' : List Instr}
    (a : EagerRun i k g h tr acc) (b : EagerRun i' l h j tr' acc') (hi : i' = i + k) :
    EagerRun i (k + l) g j (tr ++ tr') (acc ++ acc') where
  edges m := by rw [Nat.add_assoc, edges_add (a.edges (l + m)), b.edges]
  trace m := by rw [Nat.add_assoc, traceFrom_add (a.edges (l + m)), a.trace, ← hi, b.trace]
  accepted m := by rw [Nat.add_assoc, accepted_add (a.edges (l + m)), a.accepted, b.accepted]
  endState m := by rw [Nat.add_assoc, a.endState, b.endState]

theorem step_attached {h : OnHost} {t : State} (hs : step h.facing = .next t) (m : Nat) :
    step (h.attached (m + 1)) = .next (OnHost.attached m ⟨eagerRest h.tc.phase h.acts, t⟩) :=
  step_eagerStart hs

/-- One edge on the eager host. -/
theorem eagerRun_step (i : Nat) {h : OnHost} {t : State} (hn : h.acts ≠ [] ∨ ready h.tc = false) (hs : step h.facing = .next t) :
    EagerRun i 1 h ⟨eagerRest h.tc.phase h.acts, t⟩ ((transferAt h.facing t).toList.map (fun x => (i, x)))
      (acceptedAt h.facing).toList where
  edges m := by rw [Nat.add_comm, edges_one, step_attached hs]
  trace m := by rw [Nat.add_comm, traceFrom_succ (step_attached hs m), traceFrom_zero, List.append_nil]; rfl
  accepted m := by rw [Nat.add_comm, accepted_succ (step_attached hs m), accepted_zero, List.append_nil]; rfl
  endState m := by rw [Nat.add_comm, endState_step hn hs]

/-- In IDLE the next edge accepts the request that the host presents. -/
theorem eagerRun_accept (i : Nat) {q : Instr} {acts : List HostAction} {s : State} (hl : s.cfg.Legal) (hinv : s.Inv)
    (hp : s.phase = .idle) :
    EagerRun i 1 ⟨.request q :: acts, s⟩ ⟨acts, acceptArm (seqOf q) q.data { s with inputs := [] }⟩ [] [q] := by
  let h : OnHost := ⟨.request q :: acts, s⟩
  have hq : portAction h.facing.sample = .request q := portAction_present q
  have hrun := eagerRun_step i (h := h) (.inl (by simp [h])) (step_accept hl hq hp)
  have hen : s.enQ = false := inv_enQ_low hinv (.inl hp)
  have hrest : eagerRest h.tc.phase h.acts = acts := congrArg (eagerRest · h.acts) hp
  rw [transferAt_of_low (s := h.facing) hen, acceptedAt_idle (s := h.facing) hp hq, hrest] at hrun
  exact hrun

/-- An edge of a RESET that is due aborts the transfer under way and gives the reset state (R221). -/
theorem eagerRun_reset_edge (i x : Nat) {acts : List HostAction} {s : State} (hl : s.cfg.Legal) :
    EagerRun i 1 ⟨.reset ⟨0, x⟩ :: acts, s⟩ ⟨eagerRest s.phase (.reset ⟨0, x⟩ :: acts), State.resetOf s.cfg⟩
      ((abortedTransfer s).map (fun y => (i, y))) [] := by
  have hrst : (OnHost.facing ⟨.reset ⟨0, x⟩ :: acts, s⟩).sample.rst = true := rfl
  have hrun := eagerRun_step i (.inl (by simp)) (step_reset (s := OnHost.facing ⟨.reset ⟨0, x⟩ :: acts, s⟩) hl hrst)
  rw [transferAt_resetArm hrst, acceptedAt_reset hrst] at hrun
  exact hrun

/-- Only the first edge of a RESET has a transfer to abort: the later ones find the reset state (R220). -/
theorem eagerRun_reset (i x : Nat) {acts : List HostAction} {s : State} (hl : s.cfg.Legal) :
    EagerRun i (x + 1) ⟨.reset ⟨0, x⟩ :: acts, s⟩ ⟨acts, State.resetOf s.cfg⟩ ((abortedTransfer s).map (fun y => (i, y))) [] := by
  induction x generalizing i s with
  | zero => exact eagerRun_reset_edge i 0 hl
  | succ x ih =>
    have hrun := (eagerRun_reset_edge i (x + 1) hl).trans (ih (i + 1) (s := State.resetOf s.cfg) hl) rfl
    rw [Nat.add_comm 1] at hrun
    simpa [abortedTransfer] using hrun

/-! ### Undisturbed edges on the eager host -/

/-- `k` edges on the eager host that neither reset nor accept lead from `g` to `h`, and the program does not end in them. -/
structure EagerUndisturbed (k : Nat) (g h : OnHost) : Prop where
  run : ∀ m, Undisturbed k (g.attached (k + m)) (h.attached m)
  endState : ∀ m, endState (k + m) g.acts g.tc = endState m h.acts h.tc

theorem eagerUndisturbed_zero (h : OnHost) : EagerUndisturbed 0 h h where
  run m := by rw [Nat.zero_add]; exact .zero _
  endState m := by rw [Nat.zero_add]

theorem eagerUndisturbed_succ {k : Nat} {g h : OnHost} {u : State} (hn : g.acts ≠ [] ∨ ready g.tc = false)
    (hs : step g.facing = .next u) (hrst : (eagerSample g.acts).rst = false) (hacc : acceptedAt g.facing = none)
    (hrest : EagerUndisturbed k ⟨eagerRest g.tc.phase g.acts, u⟩ h) : EagerUndisturbed (k + 1) g h where
  run m := by
    rw [Nat.add_right_comm]
    exact .succ (step_attached hs (k + m)) hrst hacc (hrest.run m)
  endState m := by rw [Nat.add_right_comm, endState_step hn hs, hrest.endState]

/-- The invariants do not speak of the coming inputs. -/
theorem inv_attached_iff (m : Nat) (h : OnHost) : (h.attached m).Inv ↔ h.tc.Inv :=
  ⟨fun hinv => inv_inputs hinv h.tc.inputs, fun hinv => inv_inputs hinv _⟩

theorem EagerUndisturbed.inv {k : Nat} {g h : OnHost} (hu : EagerUndisturbed k g h) (hinv : g.tc.Inv) : h.tc.Inv :=
  (inv_attached_iff 0 h).1 ((hu.run 0).inv ((inv_attached_iff _ g).2 hinv))

theorem EagerUndisturbed.highInTime {k : Nat} {g h : OnHost} (hu : EagerUndisturbed k g h) (hinv : g.tc.Inv)
    (hhigh : HighInTime g.tc) : HighInTime h.tc :=
  (hu.run 0).highInTime ((inv_attached_iff _ g).2 hinv) hhigh

theorem EagerUndisturbed.keeps {k : Nat} {g h : OnHost} (hu : EagerUndisturbed k g h) :
    h.tc.cfg = g.tc.cfg ∧ h.tc.seq = g.tc.seq ∧ h.tc.dreg = g.tc.dreg :=
  ⟨(edges_frame (hu.run 0).edges).1, (hu.run 0).keeps⟩

/-- Such edges make the pending transfers of their numbers, and leave the later ones. -/
theorem EagerUndisturbed.eagerRun {k : Nat} {g h : OnHost} (hu : EagerUndisturbed k g h) (hinv : g.tc.Inv) (e : Nat) :
    EagerRun (e + 1) k g h ((pendingSchedule e g.tc).filter (fun x => x.1 < e + k + 1)) [] where
  edges m := (hu.run m).edges
  trace m := ((hu.run m).filter_pending ((inv_attached_iff _ g).2 hinv) e).1
  accepted m := (hu.run m).accepted
  endState := hu.endState

theorem EagerUndisturbed.pendingSchedule_eq {k : Nat} {g h : OnHost} (hu : EagerUndisturbed k g h) (hinv : g.tc.Inv) (e : Nat) :
    pendingSchedule (e + k) h.tc = (pendingSchedule e g.tc).filter (fun x => e + k + 1 ≤ x.1) :=
  ((hu.run 0).filter_pending ((inv_attached_iff _ g).2 hinv) e).2

/-- The host presents nothing until a RESET is due (log 14). -/
theorem exists_eagerUndisturbed_wait (w x : Nat) {acts : List HostAction} {s : State} (hl : s.cfg.Legal) :
    ∃ t, EagerUndisturbed w ⟨.reset ⟨w, x⟩ :: acts, s⟩ ⟨.reset ⟨0, x⟩ :: acts, t⟩ := by
  induction w generalizing s with
  | zero => exact ⟨s, eagerUndisturbed_zero _⟩
  | succ w ih =>
    obtain ⟨u, hu⟩ := step_total (s := OnHost.facing ⟨.reset ⟨w + 1, x⟩ :: acts, s⟩) hl
    obtain ⟨t, ht⟩ := ih (s := u) (by rw [(step_frame hu).1]; exact hl)
    exact ⟨t, eagerUndisturbed_succ (.inl (by simp)) hu rfl (acceptedAt_quiet rfl) ht⟩

/-- A running program goes on to its FINISH while the host holds a request, or has nothing left. -/
theorem exists_eagerUndisturbed_finish {acts : List HostAction} (hrst : (eagerSample acts).rst = false)
    (hwait : eagerRest .run acts = acts) {s : State} (hl : s.cfg.Legal) (hinv : s.Inv) :
    ∃ t, EagerUndisturbed (edgesLeft s) ⟨acts, s⟩ ⟨acts, t⟩ ∧ t.phase = .idle ∧ (s.inputs = [] → t.inputs = []) := by
  generalize hk : edgesLeft s = k
  induction k generalizing s with
  | zero => exact ⟨s, eagerUndisturbed_zero _, (edgesLeft_eq_zero_iff hinv).1 hk, id⟩
  | succ k ih =>
    have hp : s.phase = .run := by
      cases hp : s.phase with
      | idle => simp [edgesLeft_idle hp] at hk
      | run => rfl
    have hinv' : (OnHost.facing ⟨acts, s⟩).Inv := inv_inputs hinv _
    obtain ⟨u, hu⟩ := step_total (s := OnHost.facing ⟨acts, s⟩) hl
    obtain ⟨hcfg, hins⟩ := step_frame hu
    have hleft : edgesLeft s = edgesLeft u + 1 := edgesLeft_step (s := OnHost.facing ⟨acts, s⟩) hinv' hrst hp hu
    obtain ⟨t, ht, hidle, htins⟩ := ih (s := u) (by rw [hcfg]; exact hl) (step_inv hinv' hu) (by omega)
    refine ⟨t, eagerUndisturbed_succ (.inr ?_) hu hrst (acceptedAt_run hp) ?_, hidle, fun _ => htins hins⟩
    · simp [ready, hp]
    · simpa only [hp, hwait] using ht

/-- Up to its FINISH a program makes all the transfers pending. -/
theorem exists_eagerRun_finish {acts : List HostAction} (hrst : (eagerSample acts).rst = false)
    (hwait : eagerRest .run acts = acts) {s : State} (hl : s.cfg.Legal) (hinv : s.Inv) (e : Nat) :
    ∃ t, EagerRun (e + 1) (edgesLeft s) ⟨acts, s⟩ ⟨acts, t⟩ (pendingSchedule e s) [] ∧ t.phase = .idle ∧ t.Inv ∧
      t.cfg = s.cfg ∧ t.seq = s.seq ∧ t.dreg = s.dreg ∧ (s.inputs = [] → t.inputs = []) := by
  obtain ⟨t, hu, hidle, hins⟩ := exists_eagerUndisturbed_finish hrst hwait hl hinv
  obtain ⟨hcfg, hseq, hdreg⟩ := hu.keeps
  have hnone := (hu.pendingSchedule_eq hinv e).symm.trans (pendingSchedule_idle hidle _)
  have hall : (pendingSchedule e s).filter (fun x => x.1 < e + edgesLeft s + 1) = pendingSchedule e s :=
    List.filter_eq_self.2 fun x hx => by simpa using List.filter_eq_nil_iff.1 hnone x hx
  have hrun := hu.eagerRun hinv e
  rw [hall] at hrun
  exact ⟨t, hrun, hidle, hu.inv hinv, hcfg, hseq, hdreg, hins⟩

/-! ### A RESET line (R81, R82, R221) -/

/-- A request runs from its accept edge `e` to its FINISH, with nothing after it. -/
theorem exists_eagerRun_request (i : Instr) {s : State} (hl : s.cfg.Legal) (hinv : s.Inv) (hp : s.phase = .idle) (e : Nat) :
    ∃ t, EagerRun e (1 + latency s.cfg (seqOf i)) ⟨[.request i], s⟩ ⟨[], t⟩ (schedule s.cfg i.data e (program (seqOf i))) [i] ∧
      t.phase = .idle ∧ t.seq = seqOf i ∧ t.dreg = i.data ∧ t.inputs = [] := by
  have haccept := eagerRun_accept e (q := i) (acts := []) hl hinv hp
  have hinv' := acceptArm_inv i (s := { s with inputs := [] }) hl (inv_inputs hinv _) hp
  obtain ⟨t, hfinish, hidle, -, -, hseq, hdreg, hins⟩ := exists_eagerRun_finish (acts := []) rfl rfl (by simpa using hl) hinv' e
  rw [edgesLeft_accept, pendingSchedule_accept] at hfinish
  exact ⟨t, haccept.trans hfinish rfl, hidle, by simpa using hseq, by simpa using hdreg, hins (by simp)⟩

/-- INIT runs from the last edge `e` of a reset to its FINISH, while the host holds a request. -/
theorem exists_eagerRun_init (j : Instr) {c : Config} (hl : c.Legal) (e : Nat) :
    ∃ t, EagerRun (e + 1) (latency c .init) ⟨[.request j], State.resetOf c⟩ ⟨[.request j], t⟩
      (schedule c 0x00#8 e (program .init)) [] ∧ t.phase = .idle ∧ t.Inv ∧ t.cfg = c := by
  obtain ⟨t, hfinish, hidle, hinv, hcfg, -⟩ :=
    exists_eagerRun_finish (acts := [.request j]) rfl rfl (s := State.resetOf c) hl (resetOf_inv hl) e
  rw [edgesLeft_resetOf, pendingSchedule_resetOf] at hfinish
  exact ⟨t, hfinish, hidle, hinv, hcfg⟩

/-- A RESET line cuts the program of the request before it: the transfers before its first edge `w + 1` are made, and the one whose
EN is high there is aborted. -/
theorem eagerRun_request_reset (i : Instr) (w x : Nat) (acts : List HostAction) {s : State} (hl : s.cfg.Legal) (hinv : s.Inv)
    (hp : s.phase = .idle) :
    let p := schedule s.cfg i.data 0 (program (seqOf i))
    EagerRun 0 (1 + w + (x + 1)) ⟨.request i :: .reset ⟨w, x⟩ :: acts, s⟩ ⟨acts, State.resetOf s.cfg⟩
      (p.filter (fun y => y.1 < w + 1) ++
        (p.filter (fun y => w + 1 ≤ y.1 ∧ y.1 < w + 1 + s.cfg.nEh)).map (fun y => (w + 1, { y.2 with aborted := true }))) [i] := by
  intro p
  have haccept := eagerRun_accept 0 (q := i) (acts := .reset ⟨w, x⟩ :: acts) hl hinv hp
  have hinv' := acceptArm_inv i (s := { s with inputs := [] }) hl (inv_inputs hinv _) hp
  obtain ⟨t, hwait⟩ := exists_eagerUndisturbed_wait w x (acts := acts) (s := acceptArm (seqOf i) i.data { s with inputs := [] })
    (by simpa using hl)
  have htcfg : t.cfg = s.cfg := hwait.keeps.1.trans (acceptArm_cfg (seqOf i) i.data _)
  have hmade := hwait.eagerRun hinv' 0
  have hleft := hwait.pendingSchedule_eq hinv' 0
  rw [pendingSchedule_accept, Nat.zero_add] at hmade hleft
  have hreset := eagerRun_reset (w + 1) x (acts := acts) (s := t) (by rwa [htcfg])
  rw [← pendingSchedule_filter_high (hwait.inv hinv') (hwait.highInTime hinv' (highInTime_accept i _ _)) w, hleft,
    List.filter_filter, htcfg] at hreset
  have hrun := (haccept.trans hmade rfl).trans hreset (by omega)
  simpa [p, Bool.and_comm] using hrun

/-- Settles O52: the request's program cut by the reset, INIT, and the second request are three stretches on the eager host, one after
the other. -/
theorem resetLineOnTheEagerHost : Obligations.ResetLineOnTheEagerHost := by
  unfold Obligations.ResetLineOnTheEagerHost
  intro i j w x s hl hinv hp a z f n acts r p
  have hcut := eagerRun_request_reset i w x [.request j] hl hinv hp
  obtain ⟨t, hinit, htp, htinv, htcfg⟩ := exists_eagerRun_init j hl z
  obtain ⟨u, hj, hup, huseq, hudreg, huins⟩ := exists_eagerRun_request j (by rwa [htcfg]) htinv htp f
  rw [htcfg] at hj
  have hz : 1 + w + (x + 1) = z + 1 := by omega
  have hn : z + 1 + latency s.cfg .init + (1 + latency s.cfg (seqOf j)) = n := by omega
  rw [hz] at hcut
  have hall := (hcut.trans hinit (Nat.zero_add _).symm).trans hj (by omega)
  have hreset := hcut.edges (latency s.cfg .init + (1 + latency s.cfg (seqOf j)))
  rw [← Nat.add_assoc, hn] at hreset
  rw [hn] at hall
  refine ⟨hall.accepted 0, hall.trace 0, ⟨_, hreset, rfl⟩, u, ?_, ?_, huseq, hudreg⟩
  · have hend : OnHost.attached 0 ⟨[], u⟩ = u := congrArg (fun ins => { u with inputs := ins }) huins.symm
    exact (hall.edges 0).trans (congrArg _ hend)
  · exact (hall.endState 0).trans (endState_done (by simp [ready, hup]))

end Sys2Proof.Proofs

/-! The sequencer (40_sequencer.md): the invariants over a run (O35), each arm of an edge (O3, O18 to O27), how long a sub-phase (O37)
and a program (O39) last, and what the accepted requests decide (O48, O50). -/

namespace Sys2Proof.Proofs

open Sys2Proof.Machine Sys2Proof.Laws

/-! ### The invariants over a run (R117) -/

/-- Any number of edges keeps the invariants, for every input. -/
theorem edges_inv {k : Nat} {s t : State} (hinv : s.Inv) (h : edges k s = .next t) : t.Inv := by
  induction k generalizing s with
  | zero => cases h; exact hinv
  | succ k ih =>
    obtain ⟨u, hu, hut⟩ := edges_succ_inv h
    exact ih (step_inv hinv hu) hut

/-- Settles O35: a reset edge establishes the invariants (O34), every edge keeps them, and so does every run of edges. -/
theorem everyEdgeKeepsTheInvariants : Obligations.EveryEdgeKeepsTheInvariants := by
  unfold Obligations.EveryEdgeKeepsTheInvariants
  have hreset : ∀ s t : State, s.sample.rst = true → step s = .next t → t.Inv := fun s t hrst h =>
    (invariantsHoldAfterReset.2 s t hrst h).1
  exact ⟨fun s t hs h => hs.elim (fun hinv => step_inv hinv h) (fun hrst => hreset s t hrst h),
    fun s t u k hrst h hk => edges_inv (hreset s t hrst h) hk⟩

/-! ### The arms of an edge (R102 to R108, R113) -/

/-- Settles O3: the last program takes every op value that the first three leave. -/
theorem opFieldSelectsTheProgram : Obligations.OpFieldSelectsTheProgram := by
  unfold Obligations.OpFieldSelectsTheProgram
  refine ⟨rfl, rfl, rfl, rfl, fun op => ?_⟩
  unfold opseq
  split_ifs <;> simp

/-- Settles O19: in RUN with `cnt` above 1 the running program's arm is COUNT. -/
theorem countArmOnlyCountsDown : Obligations.CountArmOnlyCountsDown := by
  unfold Obligations.CountArmOnlyCountsDown
  intro s hl hrst hp hcnt
  exact (step_run hl hrst hp).trans (congrArg _ (advance_count (s := s.popInput) hcnt))

/-- Settles O20: in SU at `cnt` = 1 the running program's arm is RISE. -/
theorem riseArmRaisesEnable : Obligations.RiseArmRaisesEnable := by
  unfold Obligations.RiseArmRaisesEnable
  intro s hl hrst hp hcnt hsub
  exact (step_run hl hrst hp).trans (congrArg _ (advance_rise (s := s.popInput) hcnt hsub))

/-- Settles O21: EN is high in EH, so the edge that lowers it transfers. -/
theorem fallArmIsTheTransfer : Obligations.FallArmIsTheTransfer := by
  unfold Obligations.FallArmIsTheTransfer
  intro s hl hinv hrst hp hcnt hsub
  exact ⟨fallArm s.popInput, (step_run hl hrst hp).trans (congrArg _ (advance_fall (s := s.popInput) hcnt hsub)), rfl,
    transferAt_fallArm hinv hrst hp hsub⟩

/-- An edge that ends a micro-op runs NEXT or FINISH. -/
theorem step_end {s : State} (hl : s.cfg.Legal) (hrst : s.sample.rst = false) (hp : s.phase = .run) (hcnt : s.cnt = 1)
    (hsub : s.sub = .el ∨ s.sub = .wt) : step s = .next (endMicroOp s.popInput) :=
  (step_run hl hrst hp).trans (congrArg _ (advance_end (s := s.popInput) hcnt hsub))

/-- Settles O22: NEXT is a Start of the following entry, of either form. -/
theorem nextArmStartsTheFollowingMicroOp : Obligations.NextArmStartsTheFollowingMicroOp := by
  unfold Obligations.NextArmStartsTheFollowingMicroOp
  intro s hl hrst hp hcnt hsub
  have hnext : ∀ u, uop s.seq (s.upc.toNat + 1) = some u → step s = .next (nextArm u s.popInput) := fun u hu =>
    (step_end hl hrst hp hcnt hsub).trans (congrArg _ (endMicroOp_next (s := s.popInput) hu))
  refine ⟨fun r n hu => (hnext _ hu).trans ?_, fun k hu => hnext _ hu⟩
  cases n <;> rfl

/-- Settles O23: the last micro-op of a program is a WAIT. -/
theorem finishArmEndsTheProgram : Obligations.FinishArmEndsTheProgram := by
  unfold Obligations.FinishArmEndsTheProgram
  intro s hl hinv hrst hp hcnt hsub hlast
  obtain ⟨-, hwt⟩ := inv_last hinv hp hlast.ge
  refine ⟨hwt, finishArm s.popInput,
    (step_end hl hrst hp hcnt hsub).trans (congrArg _ (endMicroOp_finish (s := s.popInput) hlast.ge)), ?_, rfl⟩
  cases hseq : s.seq <;> simp [finishArm, hseq, State.popInput]

/-- An accepted request, whose program opens with the NIB `(r, n)`, writes these registers and nothing else. -/
theorem exec_accept {i : Instr} {r : Bool} {n : NibSrc} (hu : uop (seqOf i) 0 = some (.nib r n)) {s : State} (hl : s.cfg.Legal)
    (hp : s.phase = .idle) :
    exec i s = .next { s with
      seq := seqOf i, dreg := i.data, phase := .run, upc := 0#5, rsQ := r, dQ := nibValue n i.data, enQ := false, sub := .su,
      cnt := s.cfg.nSu } :=
  (exec_idle hl hp).trans (congrArg _ (acceptArm_eq hu i.data s))

/-- Settles O24: CMD opens with the high nibble of its byte, in mode COMMAND. -/
theorem cmdIsAcceptedInIdle : Obligations.CmdIsAcceptedInIdle := by
  unfold Obligations.CmdIsAcceptedInIdle
  intro b s hl hp
  exact exec_accept (i := .cmd b) (r := rsCommand) (n := .hi) rfl hl hp

/-- Settles O25: CHAR opens with the high nibble of its byte, in mode DATA. -/
theorem charIsAcceptedInIdle : Obligations.CharIsAcceptedInIdle := by
  unfold Obligations.CharIsAcceptedInIdle
  intro b s hl hp
  exact exec_accept (i := .char b) (r := rsData) (n := .hi) rfl hl hp

/-- Settles O26: CLEAR and HOME open with the high nibble of 0x01 and of 0x02, which is 0, in mode COMMAND. -/
theorem clearAndHomeAreAcceptedInIdle : Obligations.ClearAndHomeAreAcceptedInIdle := by
  unfold Obligations.ClearAndHomeAreAcceptedInIdle
  intro x s hl hp
  exact ⟨exec_accept (i := .clear x) (r := rsCommand) (n := .const 0x0#4) rfl hl hp,
    exec_accept (i := .home x) (r := rsCommand) (n := .const 0x0#4) rfl hl hp⟩

/-- Settles O27: in RUN both edges are those of the running program. -/
theorem requestWaitsWhileAProgramRuns : Obligations.RequestWaitsWhileAProgramRuns := by
  unfold Obligations.RequestWaitsWhileAProgramRuns
  intro i s hl hp
  obtain ⟨-, hseq, hdreg, hinputs⟩ := advance_keeps s
  exact ⟨advance s, exec_run hl hp, step_run (s := s.pushInput HostInput.quiet) hl rfl hp, hdreg, hseq, hinputs⟩

/-! ### The idle sequencer (R103) -/

/-- HOLD, at any number of edges, takes the input samples and makes no transfer, EN being low. -/
theorem hold_run {s : State} {k : Nat} (i : Nat) (hl : s.cfg.Legal) (hp : s.phase = .idle) (hen : s.enQ = false)
    (hq : ∀ j, j < k → portAction (s.inputAt j) = .quiet) :
    edges k s = .next { s with inputs := s.inputs.drop k } ∧ traceFrom i k s = [] := by
  induction k generalizing i s with
  | zero => exact ⟨rfl, rfl⟩
  | succ k ih =>
    have hstep : step s = .next s.popInput := step_hold hl (hq 0 k.succ_pos) hp
    have hlater : ∀ j, j < k → portAction (s.popInput.inputAt j) = .quiet := fun j hj => by
      rw [inputAt_edges ((edges_one s).trans hstep), Nat.add_comm]
      exact hq (j + 1) (Nat.succ_lt_succ hj)
    obtain ⟨hedges, htrace⟩ := ih (s := s.popInput) (i + 1) hl hp hen hlater
    constructor
    · rw [edges_succ hstep, hedges, popInput_inputs, List.drop_tail]
      rfl
    · rw [traceFrom_succ hstep, transferAt_of_low hen, htrace]
      rfl

/-- Settles O18: every edge runs HOLD, and EN is low in IDLE. -/
theorem idleHoldsForAnyNumberOfEdges : Obligations.IdleHoldsForAnyNumberOfEdges := by
  unfold Obligations.IdleHoldsForAnyNumberOfEdges
  intro s k hl hinv hp hquiet
  have hen : s.enQ = false := inv_enQ_low hinv (.inl hp)
  obtain ⟨hedges, htrace⟩ :=
    hold_run 0 hl hp hen fun j hj => portAction_of_quiet (hquiet j hj).1 (hquiet j hj).2
  exact ⟨hedges, htrace, by simp [ready, hp], hen⟩

/-! ### The duration of a sub-phase (R110) -/

/-- Until its count is over a sub-phase only counts down. -/
theorem edges_countdown {s : State} {j : Nat} (hl : s.cfg.Legal) (hp : s.phase = .run) (hn : s.NoReset 0 j) (hj : j < s.cnt) :
    edges j s = .next { s with cnt := s.cnt - j, inputs := s.inputs.drop j } := by
  induction j with
  | zero => rfl
  | succ j ih =>
    have hprev := ih (noReset_mono hn le_rfl j.le_succ) (Nat.lt_of_succ_lt hj)
    have hcnt : 1 < s.cnt - j := by omega
    rw [edges_snoc_run hprev hl hp (hn j j.zero_le j.lt_succ_self), advance_count hcnt, ← List.tail_drop]
    rfl

/-- The edge that ends a sub-phase is that of its `cnt` = 1. -/
theorem edges_cnt {s : State} (hl : s.cfg.Legal) (hp : s.phase = .run) (hone : 1 ≤ s.cnt) (hn : s.NoReset 0 s.cnt) :
    edges s.cnt s = .next (advance { s with cnt := 1, inputs := s.inputs.drop s.cnt }) := by
  have hlast : s.cnt - 1 < s.cnt := by omega
  have hprev := edges_countdown hl hp (noReset_mono hn le_rfl hlast.le) hlast
  have hsucc : s.cnt - 1 + 1 = s.cnt := Nat.sub_add_cancel hone
  have hrun := edges_snoc_run hprev hl hp (hn _ (Nat.zero_le _) hlast)
  rw [hsucc, Nat.sub_sub_self hone] at hrun
  rw [hrun, ← hsucc, ← List.tail_drop]
  rfl

/-- Settles O37: after the countdown the last edge runs the arm of the sub-phase at `cnt` = 1. -/
theorem subPhaseLastsItsCount : Obligations.SubPhaseLastsItsCount := by
  unfold Obligations.SubPhaseLastsItsCount
  intro s hl hp hone hn
  let m : State := { s with cnt := 1, inputs := s.inputs.drop s.cnt }
  have hend : edges s.cnt s = .next (advance m) := edges_cnt hl hp hone hn
  refine ⟨fun j hj => edges_countdown hl hp (noReset_mono hn le_rfl hj.le) hj, _, hend, ?_, ?_, ?_⟩
  · intro hsub
    rw [advance_rise (s := m) rfl hsub]
    exact ⟨rfl, rfl, hp, rfl⟩
  · intro hsub
    rw [advance_fall (s := m) rfl hsub]
    exact ⟨rfl, rfl, hp, rfl⟩
  · intro hsub
    rw [advance_end (s := m) rfl hsub]
    obtain ⟨u, hu, hnext⟩ | ⟨hlen, hfinish⟩ := endMicroOp_cases m
    · rw [hnext]
      refine ⟨fun _ => ⟨by simp [m, hp], by simp [m], u, hu, ?_⟩, fun hlast => absurd (uop_lt hu) hlast.not_gt⟩
      cases u with
      | nib r n => exact ⟨rfl, rfl⟩
      | wait k => exact ⟨rfl, rfl⟩
    · rw [hfinish]
      exact ⟨fun hlt => absurd hlen hlt.not_ge, fun _ => rfl⟩

/-! ### Running programs that nothing disturbs -/

theorem Undisturbed.rests {k : Nat} {s t : State} (h : Undisturbed k s t) (hinv : s.Inv) (hrests : s.Rests) : t.Rests := by
  induction h with
  | zero s => exact hrests
  | succ hstep _ _ _ ih => exact ih (step_inv hinv hstep) (everyEdgeKeepsTheRestingValues _ _ hinv hrests hstep)

/-- Up to its FINISH a running program is disturbed by reset alone, and every edge is one of those it has left. -/
theorem exists_undisturbed {k : Nat} {s : State} (hl : s.cfg.Legal) (hinv : s.Inv) (hn : s.NoReset 0 k) (hk : k ≤ edgesLeft s) :
    ∃ t, Undisturbed k s t ∧ edgesLeft s = edgesLeft t + k := by
  induction k generalizing s with
  | zero => exact ⟨s, .zero s, rfl⟩
  | succ k ih =>
    have hp : s.phase = .run := by
      cases hp : s.phase with
      | idle => simp [edgesLeft_idle hp] at hk
      | run => rfl
    have hrst : s.sample.rst = false := hn 0 le_rfl k.succ_pos
    obtain ⟨u, hu⟩ := step_total hl
    have hleft : edgesLeft s = edgesLeft u + 1 := edgesLeft_step hinv hrst hp hu
    obtain ⟨t, hut, hrest⟩ := ih (by rwa [(step_frame hu).1]) (step_inv hinv hu) (noReset_step hu hn) (by omega)
    exact ⟨t, .succ hu hrst (acceptedAt_run hp) hut, by omega⟩

/-- A running program reaches IDLE at its FINISH, all its pending transfers made. -/
theorem exists_undisturbed_idle {s : State} (hl : s.cfg.Legal) (hinv : s.Inv) (hn : s.NoReset 0 (edgesLeft s)) (e : Nat) :
    ∃ t, Undisturbed (edgesLeft s) s t ∧ t.phase = .idle ∧ traceFrom (e + 1) (edgesLeft s) s = pendingSchedule e s := by
  obtain ⟨t, hst, hleft⟩ := exists_undisturbed hl hinv hn le_rfl
  have hidle : t.phase = .idle := (edgesLeft_eq_zero_iff (hst.inv hinv)).1 (by omega)
  have hpending := hst.pending hinv e
  rw [pendingSchedule_idle hidle, List.append_nil] at hpending
  exact ⟨t, hst, hidle, hpending.symm⟩

/-! ### What a just loaded program does (R112) -/

/-- No running arm reads `init_done_q`, and FINISH alone writes it. -/
theorem advance_initDoneQ (s : State) (v : Bool) :
    ∃ w, advance { s with initDoneQ := v } = { advance s with initDoneQ := w } := by
  by_cases hcnt : 1 < s.cnt
  · exact ⟨v, by rw [advance_count hcnt, advance_count (s := { s with initDoneQ := v }) hcnt]; rfl⟩
  · have hend : ∃ w, endMicroOp { s with initDoneQ := v } = { endMicroOp s with initDoneQ := w } := by
      obtain ⟨u, hu, h⟩ | ⟨hlen, h⟩ := endMicroOp_cases s <;> rw [h]
      · rw [endMicroOp_next (s := { s with initDoneQ := v }) hu]
        exact ⟨v, by cases u <;> rfl⟩
      · rw [endMicroOp_finish (s := { s with initDoneQ := v }) hlen]
        exact ⟨_, rfl⟩
    cases hsub : s.sub with
    | su => exact ⟨v, by simp [advance, hcnt, hsub, riseArm]⟩
    | eh => exact ⟨v, by simp [advance, hcnt, hsub, fallArm]⟩
    | el => simpa [advance, hcnt, hsub] using hend
    | wt => simpa [advance, hcnt, hsub] using hend

/-- An edge with neither reset nor acceptance does not read `init_done_q`. -/
theorem step_initDoneQ {s t : State} (hrst : s.sample.rst = false) (hacc : acceptedAt s = none) (h : step s = .next t) (v : Bool) :
    ∃ w, step { s with initDoneQ := v } = .next { t with initDoneQ := w } := by
  obtain ⟨hl, ⟨hreset, -⟩ | ⟨-, hp, i, hi, -⟩ | ⟨-, hp, hq, rfl⟩ | ⟨-, hp, rfl⟩⟩ := step_cases h
  · simp [hrst] at hreset
  · simp [acceptedAt_idle hp hi] at hacc
  · exact ⟨v, step_hold (s := { s with initDoneQ := v }) hl hq hp⟩
  · obtain ⟨w, hw⟩ := advance_initDoneQ s.popInput v
    exact ⟨w, (step_run (s := { s with initDoneQ := v }) hl hrst hp).trans (congrArg _ hw)⟩

/-- What an undisturbed run does does not depend on `init_done_q`. -/
theorem Undisturbed.initDoneQ {k : Nat} {s t : State} (h : Undisturbed k s t) (v : Bool) :
    ∃ w, Undisturbed k { s with initDoneQ := v } { t with initDoneQ := w } ∧
      ∀ i, traceFrom i k { s with initDoneQ := v } = traceFrom i k s := by
  induction h generalizing v with
  | zero s => exact ⟨v, .zero _, fun _ => rfl⟩
  | @succ k s u t hstep hrst hacc _ ih =>
    obtain ⟨x, hx⟩ := step_initDoneQ hrst hacc hstep v
    obtain ⟨w, hw, htrace⟩ := ih x
    refine ⟨w, .succ hx hrst hacc hw, fun i => ?_⟩
    rw [traceFrom_succ hx, traceFrom_succ hstep, htrace]
    rfl

section Loaded

variable {s : State} {u : MicroOp} (hp : s.phase = .run) (hupc : s.upc = 0#5) (hu : uop s.seq 0 = some u)
  (hstart : start u s.dreg s = s)

include hp hupc hu hstart

/-- A just loaded program meets the invariants, but for a value of `init_done_q` that no program could be loaded with. -/
theorem exists_inv_of_loaded (hl : s.cfg.Legal) (hen : s.enQ = false) : ∃ v, { s with initDoneQ := v }.Inv := by
  let r : State := { s with initDoneQ := !(s.seq == .init) }
  have hr : start u s.dreg r = r :=
    calc start u s.dreg r
      _ = { start u s.dreg s with initDoneQ := r.initDoneQ } := by cases u <;> rfl
      _ = r := by rw [hstart]
  have hentry : uop s.seq s.upc.toNat = some u := by rwa [hupc]
  exact ⟨_, hr ▸ start_inv (s := r) s.dreg hl hp hen hentry (by simp [r])⟩

/-- A just loaded program has its whole latency left. -/
theorem edgesLeft_loaded : edgesLeft s = latency s.cfg s.seq :=
  calc edgesLeft s
    _ = edgesLeft (start u s.dreg s) := by rw [hstart]
    _ = cyclesFrom s s.upc.toNat := edgesLeft_start hp (by rwa [hupc]) s.dreg
    _ = latency s.cfg s.seq := by rw [hupc]; rfl

/-- A just loaded program has its whole schedule to make. -/
theorem pendingSchedule_loaded (e : Nat) : pendingSchedule e s = schedule s.cfg s.dreg e (program s.seq) :=
  calc pendingSchedule e s
    _ = pendingSchedule e (start u s.dreg s) := by rw [hstart]
    _ = scheduleFrom e s s.upc.toNat := pendingSchedule_start hp (by rwa [hupc]) e
    _ = schedule s.cfg s.dreg e (program s.seq) := by rw [hupc]; rfl

end Loaded

/-- Settles O39: with `init_done_q` as the invariants ask for it, the program runs its edges undisturbed to FINISH, the whole of its
latency and of its schedule being left at the start; and `init_done_q` is read nowhere on the way. -/
theorem programLatencyAndSchedule : Obligations.ProgramLatencyAndSchedule := by
  unfold Obligations.ProgramLatencyAndSchedule
  rintro q u s hl hp rfl hupc hu hstart hen hn
  obtain ⟨v, hinv⟩ := exists_inv_of_loaded hp hupc hu hstart hl hen
  let r : State := { s with initDoneQ := v }
  have hleft : edgesLeft r = latency s.cfg s.seq := edgesLeft_loaded (s := s) hp hupc hu hstart
  have hpending : pendingSchedule 0 r = schedule s.cfg s.dreg 0 (program s.seq) :=
    pendingSchedule_loaded (s := s) hp hupc hu hstart 0
  rw [← hleft] at hn ⊢
  obtain ⟨t, hrt, hidle, htrace⟩ := exists_undisturbed_idle (s := r) hl hinv hn 0
  obtain ⟨w, hst, hsame⟩ := hrt.initDoneQ s.initDoneQ
  have hfirst : s.upc.toNat < len s.seq := by simpa [hupc] using len_pos s.seq
  have hrests : t.Rests := hrt.rests hinv (rests_of_run hp hfirst)
  have hlow : t.enQ = false := inv_enQ_low (hrt.inv hinv) (.inl hidle)
  have hkeeps := hst.keeps
  have hcfg := (edges_frame hst.edges).1
  refine ⟨fun j hj => ?_, hst.accepted, ⟨_, hst.edges, ?_⟩, (hsame 1).trans (htrace.trans hpending)⟩
  · obtain ⟨m, hrm, hmleft⟩ := exists_undisturbed (s := r) hl hinv (noReset_mono hn le_rfl hj.le) hj.le
    obtain ⟨x, hsm, -⟩ := hrm.initDoneQ s.initDoneQ
    have hbusy : m.phase ≠ .idle := fun hmidle => by
      rw [edgesLeft_idle hmidle] at hmleft
      omega
    exact ⟨_, hsm.edges, by simpa [ready] using hbusy, hsm.keeps⟩
  · refine ⟨by simp [ready, hidle], hkeeps.1, ?_, hkeeps.2, hlow, fun i hi => ?_⟩
    · exact (hrests.idle_upc hidle).trans (congrArg len hkeeps.1)
    · exact ⟨_, step_accept (by rwa [hcfg]) hi hidle, by simp, by simp, by simp⟩

/-! ### What the accepted requests decide (R118, R58, R60) -/

/-- What the reset state has to transfer is INIT's listing, under every configuration and every input. -/
theorem pendingTransfers_resetOf (c : Config) (ins : List HostInput) :
    pendingTransfers { State.resetOf c with inputs := ins } = programTransfers .init 0x00#8 :=
  pendingTransfers_start (s := { State.resetOf c with inputs := ins }) (u := .wait .powerup) rfl rfl

/-- A run from the reset state to IDLE, without a reset, transfers what INIT and the accepted requests list. -/
theorem transfers_of_resetOf {c : Config} {ins : List HostInput} {k : Nat} {t : State}
    (hn : { State.resetOf c with inputs := ins }.NoReset 0 k) (h : edges k { State.resetOf c with inputs := ins } = .next t)
    (ht : t.phase = .idle) :
    transfers k { State.resetOf c with inputs := ins } =
      programTransfers .init 0x00#8 ++ (accepted k { State.resetOf c with inputs := ins }).flatMap requestTransfers := by
  have hl : c.Legal := by
    cases k with
    | zero => cases h; simp at ht
    | succ k =>
      obtain ⟨u, hu, -⟩ := edges_succ_inv h
      exact (step_cases hu).1
  have hrun := transfers_append_pendingTransfers (inv_inputs (resetOf_inv hl) ins) hn h
  rwa [pendingTransfers_idle ht, List.append_nil, pendingTransfers_resetOf] at hrun

/-- Settles O48: both runs transfer what INIT and the same accepted requests list. -/
theorem transfersDependOnlyOnTheAcceptedRequests : Obligations.TransfersDependOnlyOnTheAcceptedRequests := by
  unfold Obligations.TransfersDependOnlyOnTheAcceptedRequests
  intro c d ins jns k l t u hc hd hct hdu ht hu hacc
  rw [transfers_of_resetOf hc hct ht, transfers_of_resetOf hd hdu hu, hacc]

/-- A request accepted at edge `e` runs to its FINISH: it is the only one accepted, and the transfers are its program's schedule. -/
theorem exists_request_run (i : Instr) {s : State} (hl : s.cfg.Legal) (hinv : s.Inv) (hp : s.phase = .idle)
    (hi : s.Presents 0 i) (hn : s.NoReset 1 (latency s.cfg (seqOf i) + 1)) (e : Nat) :
    ∃ t, edges (latency s.cfg (seqOf i) + 1) s = .next t ∧ t.phase = .idle ∧ accepted (latency s.cfg (seqOf i) + 1) s = [i] ∧
      traceFrom e (latency s.cfg (seqOf i) + 1) s = schedule s.cfg i.data e (program (seqOf i)) := by
  have hstep := step_accept hl hi hp
  let a : State := acceptArm (seqOf i) i.data s.popInput
  have hleft : edgesLeft a = latency s.cfg (seqOf i) := edgesLeft_accept i i.data s.popInput
  rw [← hleft] at hn ⊢
  have hna : a.NoReset 0 (edgesLeft a) := noReset_edges ((edges_one s).trans hstep) (noReset_mono hn le_rfl (Nat.add_comm 1 _).le)
  obtain ⟨t, hat, hidle, htrace⟩ := exists_undisturbed_idle (by simpa [a] using hl) (step_inv hinv hstep) hna e
  refine ⟨t, (edges_succ hstep _).trans hat.edges, hidle, ?_, ?_⟩
  · rw [accepted_succ hstep, acceptedAt_idle hp hi, hat.accepted]
    rfl
  · rw [traceFrom_succ hstep, transferAt_of_not_high hinv (.inl hp), htrace]
    exact pendingSchedule_accept i s.popInput e

/-- A request's program is two NIBs and its WAITs, so its schedule has one transfer for each NIB. -/
theorem exists_schedule_request (c : Config) (i : Instr) (e : Nat) :
    ∃ a b, schedule c i.data e (program (seqOf i)) =
      [(e + c.nSu + c.nEh, a), (e + c.dNib + c.nSu + c.nEh, b)] := by
  cases i <;> exact ⟨_, _, rfl⟩

/-- The two NIBs of a request's program take `2 D_NIB` of its latency. -/
theorem two_dNib_le_latency (c : Config) (i : Instr) : 2 * c.dNib ≤ latency c (seqOf i) := by
  cases i <;>
    simp only [latency, seqOf, program, programCmd, programChar, programClear, programHome, sendDreg, sendConst, List.cons_append,
      List.nil_append, List.map_cons, List.sum_cons, duration] <;>
    omega

/-- Settles O50: the second request runs from the idle state in which the first ends, and its edges are numbered on. -/
theorem backToBackRequestsAreOneCycleApart : Obligations.BackToBackRequestsAreOneCycleApart := by
  unfold Obligations.BackToBackRequestsAreOneCycleApart
  intro i j s hl hinv hp hi hj hn
  obtain ⟨t, hst, hidle, hacc, htrace⟩ := exists_request_run i hl hinv hp hi (noReset_mono hn le_rfl (by omega)) 0
  have hcfg : t.cfg = s.cfg := (edges_frame hst).1
  have hjt : t.Presents 0 j := (congrArg portAction (inputAt_edges hst 0)).trans hj
  have hnt : t.NoReset 1 (latency t.cfg (seqOf j) + 1) :=
    noReset_edges hst (noReset_mono hn (by omega) (by rw [hcfg]; omega))
  obtain ⟨-, -, -, haccj, htracej⟩ :=
    exists_request_run j (by rwa [hcfg]) (edges_inv hinv hst) hidle hjt hnt (latency s.cfg (seqOf i) + 1)
  rw [hcfg] at haccj htracej
  have hsum : latency s.cfg (seqOf i) + latency s.cfg (seqOf j) + 2 =
      latency s.cfg (seqOf i) + 1 + (latency s.cfg (seqOf j) + 1) := by omega
  rw [hsum]
  obtain ⟨a, b, hab⟩ := exists_schedule_request s.cfg i 0
  obtain ⟨g, h, hgh⟩ := exists_schedule_request s.cfg j (latency s.cfg (seqOf i) + 1)
  refine ⟨?_, ?_, a, b, _, _, _, g, hab, by rw [hgh]; rfl, ?_⟩
  · rw [accepted_add hst, hacc, haccj]
    rfl
  · rw [trace, traceFrom_add hst, htrace, Nat.zero_add, htracej]
  · have hlat := two_dNib_le_latency s.cfg i
    have hdnib : s.cfg.dNib = s.cfg.nSu + s.cfg.nEh + s.cfg.nEl := rfl
    omega

end Sys2Proof.Proofs

/-! The nibble bus (41_nibble_and_mode.md): the halves of a byte (O7), what raises and lowers EN (O32), what moves RS and the data
lines (O33), and the waveform of one NIB (O38). -/

namespace Sys2Proof.Proofs

open Sys2Proof.Machine Sys2Proof.Laws

/-! ### The halves of a byte (R137) -/

theorem toNat_hi (b : Byte) : (hi b).toNat = (b.toNat / 16) % 16 := by
  simp [hi, Nat.shiftRight_eq_div_pow]

theorem toNat_lo (b : Byte) : (lo b).toNat = b.toNat % 16 := by
  simp [lo]

/-- The nibble split loses nothing. -/
theorem hi_append_lo (b : Byte) : hi b ++ lo b = b := by
  have hjoin : hi b ++ lo b = b.extractLsb' 0 (4 + 4) := BitVec.extractLsb'_append_extractLsb'_eq_extractLsb' rfl
  exact hjoin.trans BitVec.extractLsb'_eq_self

/-- Settles O7: the split for every byte, and the six vectors by evaluation. -/
theorem nibbleSplitIsLossless : Obligations.NibbleSplitIsLossless := by
  unfold Obligations.NibbleSplitIsLossless
  exact ⟨fun b => ⟨toNat_hi b, toNat_lo b, (hi_append_lo b).symm⟩, rfl, rfl, rfl, rfl, rfl, rfl⟩

/-! ### The edges of EN (R131, R52) -/

/-- Without reset, EN is high after an edge where RISE runs or where it was high with a count that is not over. -/
theorem arm_enQ_iff {s t : State} (hinv : s.Inv) (h : Arm s t) :
    t.enQ = true ↔ (s.phase = .run ∧ s.cnt = 1 ∧ s.sub = .su) ∨ (s.enQ = true ∧ s.cnt ≠ 1) := by
  cases h with
  | accept i hp =>
    obtain ⟨r, n, hu⟩ := uop_zero_request i
    simp [acceptArm_eq hu, hp, inv_enQ_low hinv (.inl hp)]
  | hold hp => simp [hp, inv_enQ_low hinv (.inl hp)]
  | count hp hcnt => simp [hcnt.ne']
  | rise hp hcnt hsub => simp [hp, hcnt, hsub]
  | fall hp hcnt hsub => simp [hcnt, hsub]
  | next u hp hcnt hsub =>
    have hlow : s.enQ = false := inv_enQ_low hinv (.inr (ne_eh_of_low hsub))
    have hsu : s.sub ≠ .su := by rcases hsub with hsub | hsub <;> simp [hsub]
    cases u <;> simp [nextArm, start, hlow, hsu]
  | finish hp hcnt hsub => simp [hcnt, hsub, inv_enQ_low hinv (.inr (show s.sub ≠ .eh by simp [hsub]))]

/-- The level of EN after an edge, from the state before it. -/
theorem step_enQ_iff {s t : State} (hinv : s.Inv) (h : step s = .next t) :
    t.enQ = true ↔ s.sample.rst = false ∧
      ((s.phase = .run ∧ s.cnt = 1 ∧ s.sub = .su) ∨ (s.enQ = true ∧ s.cnt ≠ 1)) := by
  cases hrst : s.sample.rst with
  | true =>
    rw [step_reset (step_cases h).1 hrst] at h
    cases h
    simp
  | false => simpa using arm_enQ_iff hinv (arm_of_step hinv hrst h)

/-- Settles O32: where EN is high the sub-phase is EH, so RISE is not the arm that runs. -/
theorem enableChangesOnlyAtRiseFallAndReset : Obligations.EnableChangesOnlyAtRiseFallAndReset := by
  unfold Obligations.EnableChangesOnlyAtRiseFallAndReset
  intro s t hinv h
  have hlevel := step_enQ_iff hinv h
  refine ⟨fun hlow => by simpa [hlow] using hlevel, fun hhigh => ?_⟩
  obtain ⟨-, hsub⟩ := hinv.en_iff.1 hhigh
  rw [← Bool.not_eq_true, hlevel]
  simp [hhigh, hsub, imp_iff_not_or]

/-! ### The changes of RS and of the data lines (R132, R134, R232) -/

/-- The first cycle of the NIB that `upc` names, with its RS level and its nibble on the bus (R130). -/
structure NibStarted (t : State) : Prop where
  running : t.phase = .run
  setup : t.sub = .su
  count : t.cnt = t.cfg.nSu
  low : t.enQ = false
  shown : ∃ r n, uop t.seq t.upc.toNat = some (.nib r n) ∧ t.rsQ = r ∧ t.dQ = nibValue n t.dreg

/-- A Start that changes RS or the data lines is that of a NIB. -/
theorem nibStarted_start {u : MicroOp} {s : State} (hp : s.phase = .run) (hu : uop s.seq s.upc.toNat = some u) {b : Byte}
    (hb : s.dreg = b) (hne : (start u b s).rsQ ≠ s.rsQ ∨ (start u b s).dQ ≠ s.dQ) : NibStarted (start u b s) := by
  subst hb
  cases u with
  | nib r n => exact ⟨hp, rfl, rfl, rfl, r, n, hu, rfl, rfl⟩
  | wait k => simp at hne

/-- ACCEPT and NEXT, which run with EN low, are the only arms but RESET that write RS or the data lines. -/
theorem arm_bus_changes {s t : State} (hinv : s.Inv) (h : Arm s t) (hne : t.rsQ ≠ s.rsQ ∨ t.dQ ≠ s.dQ) :
    s.enQ = false ∧ NibStarted t := by
  cases h with
  | accept i hp =>
    obtain ⟨r, n, hu⟩ := uop_zero_request i
    rw [acceptArm_eq_start hu] at hne ⊢
    exact ⟨inv_enQ_low hinv (.inl hp), nibStarted_start rfl hu rfl hne⟩
  | next u hp hcnt hsub hu =>
    exact ⟨inv_enQ_low hinv (.inr (ne_eh_of_low hsub)),
      nibStarted_start (s := { s.popInput with upc := s.upc + 1 }) hp ((congrArg (uop s.seq) (upc_succ hu)).trans hu) rfl hne⟩
  | hold => simp at hne
  | count => simp at hne
  | rise => simp at hne
  | fall => simp at hne
  | finish => simp at hne

/-- Settles O33: HOLD and the other running arms leave the bus alone, so the edge is the Start of a NIB. -/
theorem busDataChangesOnlyAtTheStartOfANibble : Obligations.BusDataChangesOnlyAtTheStartOfANibble := by
  unfold Obligations.BusDataChangesOnlyAtTheStartOfANibble
  intro s t hinv h hrst hne
  obtain ⟨hlow, hnib⟩ := arm_bus_changes hinv (arm_of_step hinv hrst h) hne
  exact ⟨hnib.running, hnib.setup, (step_frame h).1 ▸ hnib.count, hlow, hnib.low, hnib.shown⟩

/-! ### The waveform of a NIB (R130, R131, R133) -/

theorem traceFrom_one {s t : State} (h : step s = .next t) (i : Nat) :
    traceFrom i 1 s = (transferAt s t).toList.map (fun x => (i, x)) := by
  rw [traceFrom_succ h, traceFrom_zero, List.append_nil]

section SubPhase

variable {s : State} (hl : s.cfg.Legal) (hp : s.phase = .run)

include hl hp

/-- While a sub-phase counts down nothing is transferred. -/
theorem traceFrom_countdown {j : Nat} (i : Nat) (hn : s.NoReset 0 j) (hj : j < s.cnt) : traceFrom i j s = [] := by
  induction j with
  | zero => rfl
  | succ j ih =>
    have hprev := noReset_mono hn le_rfl j.le_succ
    have hm := edges_countdown hl hp hprev (Nat.lt_of_succ_lt hj)
    have hnext := (edges_snoc hm).symm.trans (edges_countdown hl hp hn hj)
    rw [traceFrom_add hm, ih hprev (Nat.lt_of_succ_lt hj), traceFrom_one hnext]
    simp [transferAt]

/-- In the cycles of a sub-phase its micro-op stays in force and the bus keeps its levels. -/
theorem exists_edges_within {j : Nat} (hn : s.NoReset 0 j) (hj : j < s.cnt) :
    ∃ t, edges j s = .next t ∧ t.phase = .run ∧ t.seq = s.seq ∧ t.upc = s.upc ∧ t.enQ = s.enQ ∧ t.rsQ = s.rsQ ∧ t.dQ = s.dQ :=
  ⟨_, edges_countdown hl hp hn hj, hp, rfl, rfl, rfl, rfl, rfl⟩

variable (hone : 1 ≤ s.cnt) (hn : s.NoReset 0 s.cnt)

include hone hn

/-- A sub-phase transfers at its last edge or not at all. -/
theorem traceFrom_cnt {t : State} (ht : edges s.cnt s = .next t) (i : Nat) :
    traceFrom i s.cnt s = if s.enQ && !t.enQ then [(i + (s.cnt - 1), ⟨s.rsQ, s.dQ, false⟩)] else [] := by
  have hlast : s.cnt - 1 < s.cnt := by omega
  have hsucc : s.cnt - 1 + 1 = s.cnt := Nat.sub_add_cancel hone
  have hprev := noReset_mono hn le_rfl hlast.le
  have hm := edges_countdown hl hp hprev hlast
  have hrst := (congrArg HostInput.rst (inputAt_edges hm 0)).trans (hn _ (Nat.zero_le _) hlast)
  have hnext := (edges_snoc hm).symm.trans (hsucc ▸ ht)
  have htrace := traceFrom_add hm i 1
  rw [hsucc, traceFrom_countdown hl hp i hprev hlast, traceFrom_one hnext, List.nil_append] at htrace
  rw [htrace]
  cases hfall : s.enQ && !t.enQ <;> simp [transferAt, hfall, State.sample, hrst]

end SubPhase

/-- The first enable-high cycle of the NIB whose setup `s` is in, as the RISE that ends the setup leaves it. -/
def risen (s : State) : State := riseArm { s with cnt := 1, inputs := s.inputs.drop s.cnt }

/-- The first enable-low cycle of the NIB whose enable-high hold `s` is in, as the FALL that ends the hold leaves it. -/
def fallen (s : State) : State := fallArm { s with cnt := 1, inputs := s.inputs.drop s.cnt }

/-- A NIB is in its setup, EN low, and is not reset before its end. -/
structure NibAhead (s : State) : Prop where
  legal : s.cfg.Legal
  running : s.phase = .run
  setup : s.sub = .su
  count : 1 ≤ s.cnt
  low : s.enQ = false
  noReset : s.NoReset 0 (s.cnt + (s.cfg.nEh + s.cfg.nEl))

namespace NibAhead

variable {s : State} (h : NibAhead s)

include h

theorem noReset_setup : s.NoReset 0 s.cnt := noReset_mono h.noReset le_rfl (Nat.le_add_right _ _)

/-- The setup ends in RISE (R105). -/
theorem edges_risen : edges s.cnt s = .next (risen s) :=
  (edges_cnt h.legal h.running h.count h.noReset_setup).trans (congrArg _ (advance_rise rfl h.setup))

theorem noReset_risen : (risen s).NoReset 0 (s.cfg.nEh + s.cfg.nEl) :=
  noReset_edges h.edges_risen (noReset_mono h.noReset (Nat.zero_le _) le_rfl)

theorem noReset_high : (risen s).NoReset 0 s.cfg.nEh := noReset_mono h.noReset_risen le_rfl (Nat.le_add_right _ _)

/-- The enable-high hold ends in FALL (R106). -/
theorem edges_fallen : edges s.cfg.nEh (risen s) = .next (fallen (risen s)) :=
  (edges_cnt (s := risen s) h.legal h.running (legal_eh h.legal).1 h.noReset_high).trans (congrArg _ (advance_fall rfl rfl))

theorem noReset_low : (fallen (risen s)).NoReset 0 s.cfg.nEl :=
  noReset_edges h.edges_fallen (noReset_mono h.noReset_risen (Nat.zero_le _) le_rfl)

/-- The cycles of a NIB are those of its setup, of its enable-high hold and of its enable-low hold; EN is high in the second. -/
theorem exists_edges {m : Nat} (hm : m < s.cnt + (s.cfg.nEh + s.cfg.nEl)) :
    ∃ t, edges m s = .next t ∧ t.phase = .run ∧ t.seq = s.seq ∧ t.upc = s.upc ∧
      (t.enQ = true ↔ s.cnt ≤ m ∧ m < s.cnt + s.cfg.nEh) ∧ t.rsQ = s.rsQ ∧ t.dQ = s.dQ := by
  by_cases hsu : m < s.cnt
  · obtain ⟨t, ht, hrun, hseq, hupc, hlevel, hbus⟩ :=
      exists_edges_within h.legal h.running (noReset_mono h.noReset_setup le_rfl hsu.le) hsu
    exact ⟨t, ht, hrun, hseq, hupc, iff_of_false (by simp [hlevel, h.low]) (by omega), hbus⟩
  · obtain ⟨j, rfl⟩ := Nat.exists_eq_add_of_le (Nat.le_of_not_lt hsu)
    rw [edges_add h.edges_risen]
    by_cases heh : j < s.cfg.nEh
    · obtain ⟨t, ht, hrun, hseq, hupc, hlevel, hbus⟩ :=
        exists_edges_within (s := risen s) h.legal h.running (noReset_mono h.noReset_high le_rfl heh.le) heh
      exact ⟨t, ht, hrun, hseq, hupc, iff_of_true (by simp [hlevel, risen]) (by omega), hbus⟩
    · obtain ⟨i, rfl⟩ := Nat.exists_eq_add_of_le (Nat.le_of_not_lt heh)
      have hel : i < s.cfg.nEl := by omega
      rw [edges_add h.edges_fallen]
      obtain ⟨t, ht, hrun, hseq, hupc, hlevel, hbus⟩ :=
        exists_edges_within (s := fallen (risen s)) h.legal h.running (noReset_mono h.noReset_low le_rfl hel.le) hel
      exact ⟨t, ht, hrun, hseq, hupc, iff_of_false (by simp [hlevel, fallen]) (by omega), hbus⟩

/-- Of the three sub-phases only the enable-high hold transfers, at the FALL that ends it. -/
theorem traceFrom_eq (i : Nat) :
    traceFrom (i + 1) (s.cnt + (s.cfg.nEh + s.cfg.nEl)) s = [(i + (s.cnt + s.cfg.nEh), ⟨s.rsQ, s.dQ, false⟩)] := by
  obtain ⟨t, ht⟩ := edges_total (s := fallen (risen s)) h.legal s.cfg.nEl
  obtain ⟨heh, -⟩ := legal_eh h.legal
  obtain ⟨hel, -⟩ := legal_el h.legal
  have hsetup : traceFrom (i + 1) s.cnt s = [] := by
    simpa [h.low] using traceFrom_cnt h.legal h.running h.count h.noReset_setup h.edges_risen (i + 1)
  have hhigh : ∀ e, traceFrom e s.cfg.nEh (risen s) = [(e + (s.cfg.nEh - 1), ⟨s.rsQ, s.dQ, false⟩)] := fun e =>
    traceFrom_cnt (s := risen s) h.legal h.running heh h.noReset_high h.edges_fallen e
  have hlow : ∀ e, traceFrom e s.cfg.nEl (fallen (risen s)) = [] := fun e =>
    traceFrom_cnt (s := fallen (risen s)) h.legal h.running hel h.noReset_low ht e
  have hedge : i + 1 + s.cnt + (s.cfg.nEh - 1) = i + (s.cnt + s.cfg.nEh) := by omega
  rw [traceFrom_add h.edges_risen, traceFrom_add h.edges_fallen, hsetup, hhigh, hlow, hedge]
  rfl

end NibAhead

/-- Settles O38: the statement's cycle m + 1 is the state after m edges. -/
theorem nibbleWaveform : Obligations.NibbleWaveform := by
  unfold Obligations.NibbleWaveform
  intro s hl hp hsub hcnt hen hn
  have hdur : s.cfg.dNib = s.cnt + (s.cfg.nEh + s.cfg.nEl) := by rw [hcnt, Config.dNib, Nat.add_assoc]
  rw [hdur] at hn ⊢
  have hnib : NibAhead s := ⟨hl, hp, hsub, hcnt ▸ (legal_su hl).1, hen, hn⟩
  rw [← hcnt]
  refine ⟨fun m hm => ?_, by simpa using hnib.traceFrom_eq 0⟩
  obtain ⟨t, ht, hrun, hseq, hupc, hlevel, hbus⟩ := hnib.exists_edges hm
  exact ⟨t, ht, hrun, hseq, hupc, hlevel.trans (by omega), hbus⟩

end Sys2Proof.Proofs

/-! The initialisation sequence (43_init_sequence.md): where a running program leaves the registers at its FINISH, INIT's duration
and its transfers, and INIT from the reset state to IDLE (O44). -/

namespace Sys2Proof.Proofs

open Sys2Proof.Machine Sys2Proof.Laws

/-! ### The bus levels at the end of a program (R132, R134) -/

/-- The levels of RS and of the data lines after a Start of a micro-op that found them at `v` (R130, R135). -/
def levelsAfter (b : Byte) (v : Bool × Nibble) : MicroOp → Bool × Nibble
  | .nib r n => (r, nibValue n b)
  | .wait _ => v

theorem levels_start (u : MicroOp) (b : Byte) (s : State) :
    ((start u b s).rsQ, (start u b s).dQ) = levelsAfter b (s.rsQ, s.dQ) u := by
  cases u <;> rfl

/-- The levels of RS and of the data lines once the entries of the program from entry `i` on are started. -/
def levelsFrom (s : State) (i : Nat) : Bool × Nibble :=
  ((program s.seq).drop i).foldl (levelsAfter s.dreg) (s.rsQ, s.dQ)

theorem levelsFrom_eq {s : State} {i : Nat} (h : len s.seq ≤ i) : levelsFrom s i = (s.rsQ, s.dQ) := by
  simp [levelsFrom, List.drop_eq_nil_of_le (show (program s.seq).length ≤ i from h)]

/-- NEXT starts the first of the entries that follow. -/
theorem levelsFrom_next {s : State} {u : MicroOp} (hu : uop s.seq (s.upc.toNat + 1) = some u) :
    levelsFrom s (s.upc.toNat + 1) = levelsFrom (nextArm u s) ((nextArm u s).upc.toNat + 1) := by
  obtain ⟨hi, hget⟩ := List.getElem?_eq_some_iff.1 hu
  have hlevels : ((nextArm u s).rsQ, (nextArm u s).dQ) = levelsAfter s.dreg (s.rsQ, s.dQ) u := levels_start u s.dreg _
  rw [nextArm_upc, upc_succ hu]
  simp [levelsFrom, List.drop_eq_getElem_cons hi, hget, hlevels]

/-- The levels of RS and of the data lines at the running program's FINISH; in IDLE those that the bus has. -/
def finalLevels (s : State) : Bool × Nibble :=
  match s.phase with
  | .idle => (s.rsQ, s.dQ)
  | .run => levelsFrom s (s.upc.toNat + 1)

theorem finalLevels_idle {s : State} (hp : s.phase = .idle) : finalLevels s = (s.rsQ, s.dQ) := by
  simp [finalLevels, hp]

theorem finalLevels_run {s : State} (hp : s.phase = .run) : finalLevels s = levelsFrom s (s.upc.toNat + 1) := by
  simp [finalLevels, hp]

/-- An edge with neither reset nor acceptance keeps the levels that the running program ends with. -/
theorem finalLevels_step {s t : State} (hinv : s.Inv) (hrst : s.sample.rst = false) (hacc : acceptedAt s = none)
    (h : step s = .next t) : finalLevels t = finalLevels s := by
  cases arm_of_step hinv hrst h with
  | accept i _ hi => simp [hacc] at hi
  | hold => rfl
  | count => rfl
  | rise => rfl
  | fall => rfl
  | next u hp _ _ hu =>
    rw [finalLevels_run hp, finalLevels_run (s := nextArm u s.popInput) (by simpa using hp)]
    exact (levelsFrom_next (s := s.popInput) hu).symm
  | finish hp _ _ hlast =>
    rw [finalLevels_run hp, levelsFrom_eq hlast.ge]
    exact finalLevels_idle (s := finishArm s.popInput) rfl

theorem Undisturbed.finalLevels_eq {k : Nat} {s t : State} (h : Undisturbed k s t) (hinv : s.Inv) :
    finalLevels t = finalLevels s := by
  induction h with
  | zero s => rfl
  | succ hstep hrst hacc _ ih => exact (ih (step_inv hinv hstep)).trans (finalLevels_step hinv hrst hacc hstep)

/-! ### The registers at the end of a program (R25, R27, R108) -/

/-- The registers a running program leaves at its FINISH, `k` edges on. -/
def finished (k : Nat) (s : State) : State :=
  { s with
    phase := .idle, upc := BitVec.ofNat 5 (len s.seq - 1), sub := .wt, cnt := 1, initDoneQ := true, enQ := false,
    rsQ := (finalLevels s).1, dQ := (finalLevels s).2, inputs := s.inputs.drop k }

/-- An undisturbed run to IDLE ends in the resting values and in the levels that its program's NIBs leave. -/
theorem Undisturbed.eq_finished {k : Nat} {s t : State} (h : Undisturbed k s t) (hinv : s.Inv) (hrests : s.Rests)
    (hidle : t.phase = .idle) : t = finished k s := by
  have hinvt : t.Inv := h.inv hinv
  obtain ⟨-, hupc, hcnt, hsub⟩ := h.rests hinv hrests
  obtain ⟨hcfg, hinputs⟩ := edges_frame h.edges
  obtain ⟨hseq, hdreg⟩ := h.keeps
  have hlast : t.upc = BitVec.ofNat 5 (len s.seq - 1) := by
    rw [← hseq, ← hupc hidle, Nat.add_sub_cancel, BitVec.ofNat_toNat, BitVec.setWidth_eq]
  have hlevels : (t.rsQ, t.dQ) = finalLevels s := (finalLevels_idle hidle).symm.trans (h.finalLevels_eq hinv)
  have hlow : t.enQ = false := inv_enQ_low hinvt (.inl hidle)
  cases t
  simp only [finished, State.mk.injEq]
  exact ⟨hcfg, hidle, hseq, hlast, hsub hidle, hcnt hidle, hdreg, hinvt.idle_done hidle, hlow, congrArg Prod.fst hlevels,
    congrArg Prod.snd hlevels, hinputs⟩

/-! ### INIT's listing (R160, R167, R168) -/

/-- INIT as one list: `programInit` is written as appended parts. -/
theorem program_init :
    program .init =
      [.wait .powerup, .nib false (.const 0x3#4), .wait .rst1, .nib false (.const 0x3#4), .wait .rst2,
       .nib false (.const 0x3#4), .wait .rst3, .nib false (.const 0x2#4), .wait .bus4,
       .nib false (.const 0x2#4), .nib false (.const 0x8#4), .wait .cmd,
       .nib false (.const 0x0#4), .nib false (.const 0xC#4), .wait .cmd,
       .nib false (.const 0x0#4), .nib false (.const 0x1#4), .wait .cmd, .wait .clear,
       .nib false (.const 0x0#4), .nib false (.const 0x2#4), .wait .cmd, .wait .home] := by
  obtain ⟨-, -, -, -, -, -, -, -, hinit, -⟩ := programListingsAreThoseOfTheSpec
  exact hinit

theorem latency_init (c : Config) :
    latency c .init =
      c.nPowerup + 4 * c.dNib + c.nRst1 + c.nRst2 + c.nRst3 + c.nBus4 + 8 * c.dNib + 4 * c.nCmd + c.nClear + c.nHome := by
  simp only [latency, program_init, List.map_cons, List.map_nil, List.sum_cons, List.sum_nil, duration, Config.count]
  omega

/-- INIT's 12 NIBs transfer at the end of their enable-high hold, the durations of the entries before them after the reset edge. -/
theorem schedule_init (c : Config) (x : Byte) :
    let h := c.nSu + c.nEh
    let d := c.dNib
    let b := c.nPowerup + 4 * d + c.nRst1 + c.nRst2 + c.nRst3 + c.nBus4
    schedule c x 0 (program .init) =
      [(c.nPowerup + h, ⟨false, 0x3#4, false⟩),
       (c.nPowerup + d + c.nRst1 + h, ⟨false, 0x3#4, false⟩),
       (c.nPowerup + 2 * d + c.nRst1 + c.nRst2 + h, ⟨false, 0x3#4, false⟩),
       (c.nPowerup + 3 * d + c.nRst1 + c.nRst2 + c.nRst3 + h, ⟨false, 0x2#4, false⟩),
       (b + h, ⟨false, 0x2#4, false⟩), (b + d + h, ⟨false, 0x8#4, false⟩),
       (b + 2 * d + c.nCmd + h, ⟨false, 0x0#4, false⟩), (b + 3 * d + c.nCmd + h, ⟨false, 0xC#4, false⟩),
       (b + 4 * d + 2 * c.nCmd + h, ⟨false, 0x0#4, false⟩), (b + 5 * d + 2 * c.nCmd + h, ⟨false, 0x1#4, false⟩),
       (b + 6 * d + 3 * c.nCmd + c.nClear + h, ⟨false, 0x0#4, false⟩),
       (b + 7 * d + 3 * c.nCmd + c.nClear + h, ⟨false, 0x2#4, false⟩)] := by
  simp only [program_init, schedule, uopTransfers, nibValue, duration, Config.count, List.map_cons, List.map_nil, List.nil_append,
    List.cons_append, List.cons.injEq, Prod.mk.injEq, and_true]
  omega

/-! ### INIT from the reset state (R166, R170) -/

/-- INIT's last NIB is the low nibble of `HOME_BYTE`. -/
theorem finalLevels_resetOf (c : Config) (ins : List HostInput) :
    finalLevels { State.resetOf c with inputs := ins } = (false, 0x2#4) := rfl

/-- While INIT has edges left the TC is neither ready nor initialised. -/
theorem not_ready_of_init {t : State} (hinv : t.Inv) (hseq : t.seq = .init) (hleft : 0 < edgesLeft t) :
    ready t = false ∧ initDone t = false := by
  have hp : t.phase = .run := by
    cases hp : t.phase with
    | idle => simp [edgesLeft_idle hp] at hleft
    | run => rfl
  exact ⟨by simp [ready, hp], (initDoneQ_eq_false_iff hinv hp).2 hseq⟩

/-- Settles O44: from the reset state INIT's whole latency is left and its whole schedule to be made,
and no request disturbs it. -/
theorem initRunsItsWholeProgram : Obligations.InitRunsItsWholeProgram := by
  unfold Obligations.InitRunsItsWholeProgram
  intro c ins hl s h d b l hn
  have hinv : s.Inv := inv_inputs (resetOf_inv hl) ins
  have hleft : edgesLeft s = l := (edgesLeft_resetOf c).trans (latency_init c)
  rw [← hleft] at hn ⊢
  obtain ⟨t, hst, hidle, htrace⟩ := exists_undisturbed_idle (s := s) hl hinv hn 0
  have hend : t = finished (edgesLeft s) s := hst.eq_finished hinv (rests_inputs (resetOf_rests c) ins) hidle
  refine ⟨hst.edges.trans (congrArg _ hend), ?_, fun j hj => ?_⟩
  · exact htrace.trans ((pendingSchedule_resetOf c 0).trans (schedule_init c 0x00#8))
  · obtain ⟨m, hsm, hrest⟩ := exists_undisturbed (s := s) hl hinv (noReset_mono hn le_rfl hj.le) hj.le
    exact ⟨m, hsm.edges, not_ready_of_init (hsm.inv hinv) hsm.keeps.1 (by omega)⟩

end Sys2Proof.Proofs

/-! The operations (44_operations.md): each request from its accept edge to IDLE (O40 to O43), what of the past (O45) and of the data
field (O46) its program does not show, and PRINT on the eager host (O51). -/

namespace Sys2Proof.Proofs

open Sys2Proof.Machine Sys2Proof.Laws

/-! ### A request from its accept edge to IDLE (R153, R180 to R183) -/

theorem latency_cmd (c : Config) : latency c .cmd = 2 * c.dNib + c.nCmd := by
  show c.dNib + (c.dNib + (c.nCmd + 0)) = _
  omega

theorem latency_char (c : Config) : latency c .char = 2 * c.dNib + 2 * c.nData := by
  show c.dNib + (c.dNib + (c.nData + (c.nData + 0))) = _
  omega

theorem latency_clear (c : Config) : latency c .clear = 2 * c.dNib + c.nCmd + c.nClear := by
  show c.dNib + (c.dNib + (c.nCmd + (c.nClear + 0))) = _
  omega

theorem latency_home (c : Config) : latency c .home = 2 * c.dNib + c.nCmd + c.nHome := by
  show c.dNib + (c.dNib + (c.nCmd + (c.nHome + 0))) = _
  omega

/-- The two transfers of a request accepted at edge 0 (R153). -/
theorem schedule_request (c : Config) (i : Instr) :
    schedule c i.data 0 (program (seqOf i)) =
      [c.nSu + c.nEh, 2 * c.nSu + 2 * c.nEh + c.nEl].zip (requestTransfers i) := by
  have hfirst : 0 + c.nSu + c.nEh = c.nSu + c.nEh := by omega
  have hsecond : 0 + c.dNib + c.nSu + c.nEh = 2 * c.nSu + 2 * c.nEh + c.nEl := by rw [Config.dNib]; omega
  rw [← hfirst, ← hsecond]
  cases i <;> rfl

/-- The levels of RS and of the data lines once all NIBs of a request's program are started, from levels `v`. -/
def requestLevels (i : Instr) (v : Bool × Nibble) : Bool × Nibble := (program (seqOf i)).foldl (levelsAfter i.data) v

/-- The idle state that a request accepted in the idle state `s` leaves at its FINISH. -/
def afterRequest (i : Instr) (s : State) : State :=
  { s with
    seq := seqOf i, dreg := i.data, upc := BitVec.ofNat 5 (len (seqOf i) - 1), sub := .wt, cnt := 1, enQ := false,
    rsQ := (requestLevels i (s.rsQ, s.dQ)).1, dQ := (requestLevels i (s.rsQ, s.dQ)).2,
    inputs := s.inputs.drop (latency s.cfg (seqOf i) + 1) }

/-- A request's program starts with a NIB, so the levels before its accept edge do not last. -/
theorem finalLevels_accept (i : Instr) (s : State) :
    finalLevels (acceptArm (seqOf i) i.data s) = requestLevels i (s.rsQ, s.dQ) := by
  cases i <;> rfl

/-- In IDLE `init_done_q` is 1 already, so FINISH leaves it as the accept edge found it (R108). -/
theorem finished_accept {i : Instr} {s : State} (hinv : s.Inv) (hp : s.phase = .idle) :
    finished (latency s.cfg (seqOf i)) (acceptArm (seqOf i) i.data s.popInput) = afterRequest i s := by
  have hdone : s.initDoneQ = true := hinv.idle_done hp
  simp [finished, afterRequest, finalLevels_accept, hdone, hp]

theorem run_of_not_ready {s : State} (h : ready s = false) : s.phase = .run := by
  cases hp : s.phase with
  | idle => simp [ready, hp] at h
  | run => rfl

/-- A program with edges left is running. -/
theorem run_of_edgesLeft_pos {s : State} (hleft : 0 < edgesLeft s) : s.phase = .run := by
  cases hp : s.phase with
  | idle => simp [edgesLeft_idle hp] at hleft
  | run => rfl

/-- A request accepted in IDLE runs its whole program: its end state, its two transfers, and `ready` 0 on the way. -/
theorem request_runs_its_program (i : Instr) {s : State} (hl : s.cfg.Legal) (hinv : s.Inv) (hp : s.phase = .idle)
    (hi : s.Presents 0 i) (hn : s.NoReset 1 (latency s.cfg (seqOf i) + 1)) :
    edges (latency s.cfg (seqOf i) + 1) s = .next (afterRequest i s) ∧
      trace (latency s.cfg (seqOf i) + 1) s =
        [s.cfg.nSu + s.cfg.nEh, 2 * s.cfg.nSu + 2 * s.cfg.nEh + s.cfg.nEl].zip (requestTransfers i) ∧
      ∀ j, 1 ≤ j → j ≤ latency s.cfg (seqOf i) → ∃ t, edges j s = .next t ∧ ready t = false := by
  let a : State := acceptArm (seqOf i) i.data s.popInput
  have hstep : step s = .next a := step_accept hl hi hp
  have hla : a.cfg.Legal := by simpa [a] using hl
  have hinva : a.Inv := step_inv hinv hstep
  have hleft : edgesLeft a = latency s.cfg (seqOf i) := edgesLeft_accept i i.data s.popInput
  have hna : a.NoReset 0 (edgesLeft a) :=
    noReset_edges ((edges_one s).trans hstep) (noReset_mono hn le_rfl (by omega))
  obtain ⟨-, -, -, -, htrace⟩ := exists_request_run i hl hinv hp hi hn 0
  obtain ⟨t, hat, hidle, -⟩ := exists_undisturbed_idle hla hinva hna 0
  refine ⟨?_, htrace.trans (schedule_request s.cfg i), fun j hone hj => ?_⟩
  · rw [hat.eq_finished hinva (acceptArm_rests _ _ _) hidle, hleft, finished_accept hinv hp] at hat
    exact (edges_succ hstep _).trans hat.edges
  · obtain ⟨m, rfl⟩ := Nat.exists_eq_add_of_le' hone
    obtain ⟨u, hau, hrest⟩ := exists_undisturbed (k := m) hla hinva (noReset_mono hna le_rfl (by omega)) (by omega)
    have hrun : u.phase = .run := run_of_edgesLeft_pos (by omega)
    exact ⟨u, (edges_succ hstep _).trans hau.edges, by simp [ready, hrun]⟩

/-- Settles O40: CMD's latency, the levels of its second NIB and its two transfers. -/
theorem cmdRunsItsWholeProgram : Obligations.CmdRunsItsWholeProgram := by
  unfold Obligations.CmdRunsItsWholeProgram
  intro b s hl hinv hp hi hn
  rw [← latency_cmd] at hn ⊢
  exact request_runs_its_program (.cmd b) hl hinv hp hi hn

/-- Settles O41, as O40, with CHAR's listing. -/
theorem charRunsItsWholeProgram : Obligations.CharRunsItsWholeProgram := by
  unfold Obligations.CharRunsItsWholeProgram
  intro b s hl hinv hp hi hn
  rw [← latency_char] at hn ⊢
  exact request_runs_its_program (.char b) hl hinv hp hi hn

/-- Settles O42: CLEAR's listing has constant nibbles, so the data field goes to `dreg` alone. -/
theorem clearRunsItsWholeProgram : Obligations.ClearRunsItsWholeProgram := by
  unfold Obligations.ClearRunsItsWholeProgram
  intro x s hl hinv hp hi hn
  rw [← latency_clear] at hn ⊢
  exact request_runs_its_program (.clear x) hl hinv hp hi hn

/-- Settles O43, as O42, with HOME's listing. -/
theorem homeRunsItsWholeProgram : Obligations.HomeRunsItsWholeProgram := by
  unfold Obligations.HomeRunsItsWholeProgram
  intro x s hl hinv hp hi hn
  rw [← latency_home] at hn ⊢
  exact request_runs_its_program (.home x) hl hinv hp hi hn

/-! ### What a request's program shows of the past (R185) -/

/-- The registers are equal but for `init_done_q`, which no running arm reads. -/
def SameButInitDone (s t : State) : Prop := SameRegisters { s with initDoneQ := false } { t with initDoneQ := false }

theorem sameButInitDone_popInput {s t : State} (h : SameButInitDone s t) : SameButInitDone s.popInput t.popInput := h

theorem sameButInitDone_phase {s t : State} (h : SameButInitDone s t) : s.phase = t.phase :=
  (State.mk.inj h).2.1

theorem sameButInitDone_outputs {s t : State} (h : SameButInitDone s t) :
    lcdEn s = lcdEn t ∧ lcdRs s = lcdRs t ∧ lcdD s = lcdD t ∧ ready s = ready t := by
  obtain ⟨-, hphase, -, -, -, -, -, -, hen, hrs, hd, -⟩ := State.mk.inj h
  exact ⟨hen, hrs, hd, congrArg (· == .idle) hphase⟩

theorem sameButInitDone_advance {s t : State} (h : SameButInitDone s t) : SameButInitDone (advance s) (advance t) := by
  obtain ⟨v, hv⟩ := advance_initDoneQ s false
  obtain ⟨w, hw⟩ := advance_initDoneQ t false
  have hsame := sameRegisters_advance h
  rw [hv, hw] at hsame
  exact congrArg (fun r : State => { r with initDoneQ := false }) hsame

/-- ACCEPT writes every register but `init_done_q`, from the request and the configuration (R102). -/
theorem sameButInitDone_accept (i : Instr) {s t : State} (hcfg : t.cfg = s.cfg) :
    SameButInitDone (acceptArm (seqOf i) i.data s) (acceptArm (seqOf i) i.data t) := by
  obtain ⟨r, n, hu⟩ := uop_zero_request i
  rw [acceptArm_eq hu, acceptArm_eq hu, SameButInitDone, SameRegisters, hcfg]

/-- From two states that differ in `init_done_q` at most, a running program goes the same way. -/
theorem exists_edges_sameButInitDone {s t : State} {k : Nat} (hl : s.cfg.Legal) (hlt : t.cfg.Legal) (hs : s.NoReset 0 k)
    (ht : t.NoReset 0 k) (hrun : ∀ j u, j < k → edges j s = .next u → u.phase = .run) (hsame : SameButInitDone s t) :
    ∃ u v, edges k s = .next u ∧ edges k t = .next v ∧ SameButInitDone u v := by
  induction k with
  | zero => exact ⟨s, t, rfl, rfl, hsame⟩
  | succ k ih =>
    obtain ⟨u, v, hu, hv, huv⟩ := ih (noReset_mono hs le_rfl k.le_succ) (noReset_mono ht le_rfl k.le_succ)
      (fun j u hj => hrun j u (by omega))
    have hurun : u.phase = .run := hrun k u k.lt_succ_self hu
    have hvrun : v.phase = .run := (sameButInitDone_phase huv).symm.trans hurun
    exact ⟨_, _, edges_snoc_run hu hl hurun (hs k k.zero_le k.lt_succ_self),
      edges_snoc_run hv hlt hvrun (ht k k.zero_le k.lt_succ_self),
      sameButInitDone_advance (sameButInitDone_popInput huv)⟩

/-- An accepted request's program meets the invariants, but for the `init_done_q` that it was accepted with. -/
theorem acceptArm_done_inv (i : Instr) {s : State} (hl : s.cfg.Legal) :
    { acceptArm (seqOf i) i.data s with initDoneQ := true }.Inv := by
  obtain ⟨r, n, hu⟩ := uop_zero_request i
  rw [acceptArm_eq hu]
  exact start_inv (u := .nib r n) i.data
    (s := { s with seq := seqOf i, dreg := i.data, phase := .run, upc := 0#5, initDoneQ := true, enQ := false })
    hl rfl rfl hu (by simp [seqOf_ne_init i])

/-- An accepted request's program runs for its whole latency, whatever idle state accepted it (R112). -/
theorem run_of_accept (i : Instr) {s u : State} {j : Nat} (hl : s.cfg.Legal) (hj : j < latency s.cfg (seqOf i))
    (hn : (acceptArm (seqOf i) i.data s).NoReset 0 j) (hu : edges j (acceptArm (seqOf i) i.data s) = .next u) :
    u.phase = .run := by
  let b : State := { acceptArm (seqOf i) i.data s with initDoneQ := true }
  have hleft : edgesLeft b = latency s.cfg (seqOf i) := edgesLeft_accept i i.data s
  obtain ⟨m, hbm, hrest⟩ := exists_undisturbed (s := b) (by simpa [b] using hl) (acceptArm_done_inv i hl) hn (by omega)
  obtain ⟨w, ham, -⟩ := hbm.initDoneQ (acceptArm (seqOf i) i.data s).initDoneQ
  obtain rfl : u = { m with initDoneQ := w } := Host.Outcome.next.inj (hu.symm.trans ham.edges)
  exact run_of_edgesLeft_pos (s := m) (by omega)

/-- Settles O45: the two accept edges leave the same registers but for `init_done_q`, and the program then runs its edges the same
way. -/
theorem requestWaveformIgnoresThePast : Obligations.RequestWaveformIgnoresThePast := by
  unfold Obligations.RequestWaveformIgnoresThePast
  intro i s t j hl hcfg hs ht hsi hti hone hj hns hnt
  have hlt : t.cfg.Legal := by rwa [hcfg]
  have hsa := step_accept hl hsi hs
  have htb := step_accept hlt hti ht
  obtain ⟨m, rfl⟩ := Nat.exists_eq_add_of_le hone
  have hna := noReset_edges (a := 0) ((edges_one s).trans hsa) hns
  have hnb := noReset_edges (a := 0) ((edges_one t).trans htb) hnt
  obtain ⟨u, v, hu, hv, hsame⟩ := exists_edges_sameButInitDone (by simpa using hl) (by simpa using hlt) hna hnb
    (fun j u hjm => run_of_accept i (s := s.popInput) hl (by simp only [popInput_cfg]; omega) (noReset_mono hna le_rfl hjm.le))
    (sameButInitDone_accept i (s := s.popInput) (t := t.popInput) hcfg)
  rw [Nat.add_comm 1 m]
  exact ⟨u, v, (edges_succ hsa m).trans hu, (edges_succ htb m).trans hv, sameButInitDone_outputs hsame⟩

/-! ### What the programs that do not read `dreg` show of it (R185, R186) -/

/-- The states are equal but for `dreg`, and where that differs the program in `seq` does not read it. -/
def SameButUnreadDreg (s t : State) : Prop :=
  ∃ y, t = { s with dreg := y } ∧ (y = s.dreg ∨ s.seq ≠ .cmd ∧ s.seq ≠ .char)

theorem sameButUnreadDreg_refl (s : State) : SameButUnreadDreg s s := ⟨s.dreg, rfl, .inl rfl⟩

/-- NEXT starts an entry with a constant nibble, or a WAIT, without reading `dreg`. -/
theorem nextArm_dreg {s : State} (hq : s.seq ≠ .cmd ∧ s.seq ≠ .char) {i : Nat} {u : MicroOp} (hu : uop s.seq i = some u)
    (y : Byte) : nextArm u { s with dreg := y } = { nextArm u s with dreg := y } := by
  cases u with
  | wait k => rfl
  | nib r n =>
    obtain ⟨c, rfl⟩ := uop_const_of_not_byte hq hu
    rfl

theorem advance_dreg {s : State} (hq : s.seq ≠ .cmd ∧ s.seq ≠ .char) (y : Byte) :
    advance { s with dreg := y } = { advance s with dreg := y } := by
  have hend : endMicroOp { s with dreg := y } = { endMicroOp s with dreg := y } := by
    obtain ⟨u, hu, h⟩ | ⟨hlen, h⟩ := endMicroOp_cases s <;> rw [h]
    · exact (endMicroOp_next (s := { s with dreg := y }) hu).trans (nextArm_dreg hq hu y)
    · exact endMicroOp_finish (s := { s with dreg := y }) hlen
  by_cases hcnt : 1 < s.cnt
  · rw [advance_count hcnt]
    exact advance_count (s := { s with dreg := y }) hcnt
  · cases hsub : s.sub with
    | su => simp [advance, hcnt, hsub, riseArm]
    | eh => simp [advance, hcnt, hsub, fallArm]
    | el => simpa [advance, hcnt, hsub] using hend
    | wt => simpa [advance, hcnt, hsub] using hend

/-- Every edge keeps states equal but for an unread `dreg`: RESET and ACCEPT overwrite it, HOLD and the
running arms do not read it. -/
theorem exists_step_sameButUnreadDreg {s s' t : State} (h : SameButUnreadDreg s t) (hs : step s = .next s') :
    ∃ t', step t = .next t' ∧ SameButUnreadDreg s' t' ∧ transferAt s s' = transferAt t t' := by
  obtain ⟨y, rfl, rfl | hq⟩ := h
  · exact ⟨s', hs, sameButUnreadDreg_refl s', rfl⟩
  · obtain ⟨hl, ⟨hrst, rfl⟩ | ⟨hrst, hp, i, hi, rfl⟩ | ⟨hrst, hp, hquiet, rfl⟩ | ⟨hrst, hp, rfl⟩⟩ := step_cases hs
    · exact ⟨_, step_reset (s := { s with dreg := y }) hl hrst, sameButUnreadDreg_refl _, rfl⟩
    · have haccept : acceptArm (seqOf i) i.data ({ s with dreg := y } : State).popInput =
          acceptArm (seqOf i) i.data s.popInput := by
        obtain ⟨r, n, hu⟩ := uop_zero_request i
        rw [acceptArm_eq hu, acceptArm_eq hu]
        rfl
      exact ⟨_, (step_accept (s := { s with dreg := y }) hl hi hp).trans (congrArg _ haccept), sameButUnreadDreg_refl _, rfl⟩
    · exact ⟨_, step_hold (s := { s with dreg := y }) hl hquiet hp, ⟨y, rfl, .inr hq⟩, rfl⟩
    · have hadvance := advance_dreg (s := s.popInput) hq y
      obtain ⟨-, hseq, -⟩ := advance_keeps s.popInput
      exact ⟨_, (step_run (s := { s with dreg := y }) hl hrst hp).trans (congrArg _ hadvance),
        ⟨y, rfl, .inr (by rwa [hseq])⟩, rfl⟩

/-- Any number of edges under any inputs keeps them so, and the transfers are the same. -/
theorem exists_edges_sameButUnreadDreg {s t : State} (hl : s.cfg.Legal) (h : SameButUnreadDreg s t) (i k : Nat) :
    traceFrom i k s = traceFrom i k t ∧ ∃ s' t', edges k s = .next s' ∧ edges k t = .next t' ∧ SameButUnreadDreg s' t' := by
  induction k generalizing i s t with
  | zero => exact ⟨rfl, s, t, rfl, rfl, h⟩
  | succ k ih =>
    obtain ⟨u, hu⟩ := step_total hl
    obtain ⟨v, hv, huv, htransfer⟩ := exists_step_sameButUnreadDreg h hu
    obtain ⟨htrace, hedges⟩ := ih (by rwa [(step_frame hu).1]) huv (i + 1)
    rw [traceFrom_succ hu, traceFrom_succ hv, htransfer, htrace, edges_succ hu, edges_succ hv]
    exact ⟨rfl, hedges⟩

/-- Two accept edges of such a program differ in the byte they load and in nothing else. -/
theorem sameButUnreadDreg_accept {q : Seq} (hq : q ≠ .cmd ∧ q ≠ .char) (x y : Byte) (s : State) :
    SameButUnreadDreg (acceptArm q x s) (acceptArm q y s) := by
  cases q with
  | cmd => exact absurd rfl hq.1
  | char => exact absurd rfl hq.2
  | init | clear | home => exact ⟨y, rfl, .inr hq⟩

theorem SameButUnreadDreg.eq_of_dreg {s t : State} (h : SameButUnreadDreg s t) :
    { s with dreg := 0x00#8 } = { t with dreg := 0x00#8 } := by
  obtain ⟨y, rfl, -⟩ := h
  rfl

/-- Settles O46: the accept edges leave states that differ in an unread `dreg`, and every edge keeps that. -/
theorem clearAndHomeDataIsNeverObserved : Obligations.ClearAndHomeDataIsNeverObserved := by
  unfold Obligations.ClearAndHomeDataIsNeverObserved
  intro x y s hl hp
  refine ⟨_, _, _, _, exec_idle (i := .clear x) hl hp, exec_idle (i := .clear y) hl hp, exec_idle (i := .home x) hl hp,
    exec_idle (i := .home y) hl hp, rfl, rfl, rfl, rfl, fun k => ?_⟩
  have hclear := sameButUnreadDreg_accept (q := .clear) (by simp) x y s
  have hhome := sameButUnreadDreg_accept (q := .home) (by simp) x y s
  obtain ⟨hcleartrace, t', u', ht, hu, htu⟩ := exists_edges_sameButUnreadDreg (by simpa using hl) hclear 0 k
  obtain ⟨hhometrace, v', w', hv, hw, hvw⟩ := exists_edges_sameButUnreadDreg (by simpa using hl) hhome 0 k
  exact ⟨hcleartrace, hhometrace, t', u', v', w', ht, hu, hv, hw, htu.eq_of_dreg, hvw.eq_of_dreg⟩

/-! ### Programs of requests on the eager host (R82, R184) -/

/-- A program on the eager host that is a list of requests. -/
def requests (is : List Instr) : List HostAction := is.map .request

/-- The edges that the requests take on the eager host: for each its accept edge and then its latency. -/
def hostEdges (c : Config) (is : List Instr) : Nat := (is.map (fun i => 1 + latency c (seqOf i))).sum

/-- While a program runs the host waits with what is left of the requests. -/
theorem eagerRest_run_requests (is : List Instr) : eagerRest .run (requests is) = requests is := by
  cases is <;> rfl

theorem eagerSample_requests_rst (is : List Instr) : (eagerSample (requests is)).rst = false := by
  cases is <;> rfl

theorem exists_eagerRest_requests (p : Phase) (is : List Instr) : ∃ js, eagerRest p (requests is) = requests js := by
  cases p with
  | run => exact ⟨is, eagerRest_run_requests is⟩
  | idle =>
    cases is with
    | nil => exact ⟨[], rfl⟩
    | cons i is => exact ⟨is, rfl⟩

/-- A host with requests alone never asserts `rst`. -/
theorem rst_of_mem_eagerInputs {k : Nat} {is : List Instr} {s : State} {p : HostInput}
    (hp : p ∈ eagerInputs k (requests is) s) : p.rst = false := by
  induction k generalizing is s with
  | zero => simp [eagerInputs] at hp
  | succ k ih =>
    obtain rfl | hlater := List.mem_cons.1 hp
    · exact eagerSample_requests_rst is
    · obtain ⟨js, hjs⟩ := exists_eagerRest_requests s.phase is
      rw [hjs] at hlater
      cases hs : step { s with inputs := [eagerSample (requests is)] } with
      | next t => rw [hs] at hlater; exact ih hlater
      | fault r => simp [hs] at hlater
      | refused r => simp [hs] at hlater

/-- So a TC attached to it samples no reset, at any edge. -/
theorem noReset_requests (m : Nat) (is : List Instr) (s : State) (a b : Nat) :
    (OnHost.attached m ⟨requests is, s⟩).NoReset a b := by
  intro j _ _
  rw [State.inputAt, List.getD_eq_getElem?_getD]
  show ((eagerInputs m (requests is) s)[j]?.getD HostInput.quiet).rst = false
  cases hj : (eagerInputs m (requests is) s)[j]? with
  | none => rfl
  | some p => exact rst_of_mem_eagerInputs (List.mem_of_getElem? hj)

/-- A request that others follow runs from its accept edge `e` to its FINISH, where the host stands before them. -/
theorem exists_eagerRun_request_then (i : Instr) (is : List Instr) {s : State} (hl : s.cfg.Legal) (hinv : s.Inv)
    (hp : s.phase = .idle) (e : Nat) :
    ∃ t, EagerRun e (1 + latency s.cfg (seqOf i)) ⟨requests (i :: is), s⟩ ⟨requests is, t⟩
        (schedule s.cfg i.data e (program (seqOf i))) [i] ∧
      t.phase = .idle ∧ t.Inv ∧ t.cfg = s.cfg := by
  have haccept := eagerRun_accept e (q := i) (acts := requests is) hl hinv hp
  have hinv' := acceptArm_inv i (s := { s with inputs := [] }) hl (inv_inputs hinv _) hp
  obtain ⟨t, hfinish, hidle, hinvt, hcfg, -⟩ :=
    exists_eagerRun_finish (eagerSample_requests_rst is) (eagerRest_run_requests is) (by simpa using hl) hinv' e
  rw [edgesLeft_accept, pendingSchedule_accept] at hfinish
  exact ⟨t, haccept.trans hfinish rfl, hidle, hinvt, by simpa using hcfg⟩

theorem eagerRun_zero (i : Nat) (h : OnHost) : EagerRun i 0 h h [] [] where
  edges m := by rw [Nat.zero_add]; rfl
  trace _ := rfl
  accepted _ := rfl
  endState m := by rw [Nat.zero_add]

/-- Requests run one after the other, each accepted at the edge after the FINISH of the one before (R82). -/
theorem exists_eagerRun_requests (is js : List Instr) {s : State} (hl : s.cfg.Legal) (hinv : s.Inv) (hp : s.phase = .idle)
    (e : Nat) :
    ∃ t tr, EagerRun e (hostEdges s.cfg is) ⟨requests (is ++ js), s⟩ ⟨requests js, t⟩ tr is ∧ t.phase = .idle ∧ t.Inv ∧
      t.cfg = s.cfg := by
  induction is generalizing s e with
  | nil => exact ⟨s, [], eagerRun_zero e _, hp, hinv, rfl⟩
  | cons i is ih =>
    obtain ⟨t, hi, htp, htinv, htcfg⟩ := exists_eagerRun_request_then i (is ++ js) hl hinv hp e
    obtain ⟨u, tr, his, hup, huinv, hucfg⟩ := ih (by rwa [htcfg]) htinv htp (e + (1 + latency s.cfg (seqOf i)))
    rw [htcfg] at his
    exact ⟨u, _, hi.trans his rfl, hup, huinv, hucfg.trans htcfg⟩

theorem latency_request_pos (i : Instr) {c : Config} (hl : c.Legal) : 1 ≤ latency c (seqOf i) := by
  have htwo := two_dNib_le_latency c i
  obtain ⟨hsu, -⟩ := legal_su hl
  rw [Config.dNib] at htwo
  omega

/-- In the cycle before its FINISH the last request still runs. -/
theorem exists_run_before_finish (i : Instr) {s : State} (hl : s.cfg.Legal) (hinv : s.Inv) (hp : s.phase = .idle) :
    ∃ t, edges (latency s.cfg (seqOf i)) (OnHost.attached (latency s.cfg (seqOf i) + 1) ⟨requests [i], s⟩) = .next t ∧
      t.phase = .run := by
  let g : OnHost := ⟨requests [i], s⟩
  obtain ⟨-, -, hbusy⟩ := request_runs_its_program i (s := g.attached (latency s.cfg (seqOf i) + 1)) hl
    ((inv_attached_iff _ g).2 hinv) hp (portAction_present i) (noReset_requests _ _ _ _ _)
  obtain ⟨t, ht, hready⟩ := hbusy _ (latency_request_pos i hl) le_rfl
  exact ⟨t, ht, run_of_not_ready hready⟩

theorem hostEdges_append_singleton (c : Config) (is : List Instr) (i : Instr) :
    hostEdges c (is ++ [i]) = hostEdges c is + (1 + latency c (seqOf i)) := by
  simp [hostEdges]

/-- Requests on the eager host from IDLE: the last one finishes at the last of their edges and no earlier, each is accepted once, in
order, and each makes its own transfers (R82, R58). -/
theorem requests_on_eager_host {is : List Instr} (hne : is ≠ []) {s : State} (hl : s.cfg.Legal) (hinv : s.Inv)
    (hp : s.phase = .idle) {n : Nat} (hn : n + 1 = hostEdges s.cfg is) :
    let r := eagerStart (n + 1) (requests is) s
    (∃ t, edges (n + 1) r = .next t ∧ t.phase = .idle ∧ t.inputs = []) ∧ (∃ t, edges n r = .next t ∧ t.phase = .run) ∧
      accepted (n + 1) r = is ∧ transfers (n + 1) r = is.flatMap requestTransfers := by
  intro r
  obtain rfl | ⟨js, q, rfl⟩ := List.eq_nil_or_concat' is
  · exact absurd rfl hne
  obtain ⟨t, tr, hjs, htp, htinv, htcfg⟩ := exists_eagerRun_requests js [q] hl hinv hp 0
  have hlt : t.cfg.Legal := by rwa [htcfg]
  obtain ⟨u, hq, hup, -⟩ := exists_eagerRun_request q hlt htinv htp (0 + hostEdges s.cfg js)
  obtain ⟨v, hv, hvp⟩ := exists_run_before_finish q hlt htinv htp
  rw [htcfg] at hq hv
  have hall := hjs.trans hq rfl
  rw [hostEdges_append_singleton] at hn
  rw [← hn] at hall
  have hend : edges (n + 1) r = .next (OnHost.attached 0 ⟨[], u⟩) := hall.edges 0
  have hacc : accepted (n + 1) r = js ++ [q] := hall.accepted 0
  have hrinv : r.Inv := inv_inputs hinv _
  refine ⟨⟨_, hend, hup, rfl⟩, ⟨v, ?_, hvp⟩, hacc, ?_⟩
  · have hlast := edges_add (hjs.edges (latency s.cfg (seqOf q) + 1)) (latency s.cfg (seqOf q))
    have hbefore : hostEdges s.cfg js + latency s.cfg (seqOf q) = n := by omega
    rw [← Nat.add_assoc, hbefore] at hlast
    exact hlast.trans hv
  · have hrun := transfers_append_pendingTransfers hrinv (noReset_requests _ _ _ _ _) hend
    rwa [pendingTransfers_idle (s := r) hp, pendingTransfers_idle (s := OnHost.attached 0 ⟨[], u⟩) hup, hacc,
      List.append_nil, List.nil_append] at hrun

/-- What PRINT asks of the host (R81). -/
def printRequests (text : List Byte) : List Instr := .clear 0x00#8 :: .home 0x00#8 :: text.map .char

theorem assembleLine_print (tm : ResetTiming) (text : List Byte) :
    assembleLine tm (.print text) = requests (printRequests text) := by
  simp [assembleLine, requests, printRequests]

/-- The cycles of PRINT (R184). -/
theorem hostEdges_print (c : Config) (text : List Byte) :
    printCycles c text.length + 1 = hostEdges c (printRequests text) := by
  have hchars : hostEdges c (text.map .char) = text.length * (latency c .char + 1) := by
    simp [hostEdges, Function.comp_def, seqOf, Nat.add_comm 1]
  have hprint : hostEdges c (printRequests text) =
      1 + latency c .clear + (1 + latency c .home + hostEdges c (text.map .char)) := rfl
  rw [hprint, hchars, printCycles]
  omega

/-- Settles O51: PRINT is a list of requests with no RESET among them, and its cycles are those of the requests. -/
theorem printRunsOnTheEagerHost : Obligations.PrintRunsOnTheEagerHost := by
  unfold Obligations.PrintRunsOnTheEagerHost
  intro text tm s hl hinv hp
  rw [assembleLine_print]
  obtain ⟨hend, hbusy, hacc, htransfers⟩ :=
    requests_on_eager_host (List.cons_ne_nil _ _) hl hinv hp (hostEdges_print s.cfg text)
  refine ⟨hend, hbusy, hacc, htransfers.trans ?_⟩
  rw [List.flatMap_cons, List.flatMap_cons, List.flatMap_map]
  rfl

end Sys2Proof.Proofs

/-! Reset, hazards and timing (70_reset_and_hazards.md): `rst` held for several edges (O14), what a reset edge aborts (O15), and the
timing table (O10). -/

namespace Sys2Proof.Proofs

open Sys2Proof.Machine Sys2Proof.Laws

/-! ### A reset that is held (R220) -/

/-- Of the state before it, a reset edge leaves only the configuration and the coming inputs. -/
theorem step_reset_eq_resetOf {s : State} (hl : s.cfg.Legal) (hrst : s.sample.rst = true) :
    step s = .next { State.resetOf s.cfg with inputs := s.inputs.tail } :=
  (step_reset hl hrst).trans (congrArg _ (resetArm_eq_resetOf s.popInput))

/-- Settles O14, by induction on the edges held: each finds the reset state of the same configuration, and takes one input. -/
theorem heldResetGivesTheResetState : Obligations.HeldResetGivesTheResetState := by
  unfold Obligations.HeldResetGivesTheResetState
  intro s k hl hk hrst
  induction k, hk using Nat.le_induction with
  | base => rw [edges_one, step_reset_eq_resetOf hl (hrst 0 Nat.one_pos), List.drop_one]
  | succ k _ ih =>
    have hheld := ih fun j hj => hrst j (Nat.lt_succ_of_lt hj)
    have hlast : (State.sample { State.resetOf s.cfg with inputs := s.inputs.drop k }).rst = true :=
      (congrArg HostInput.rst (inputAt_edges hheld 0)).trans (hrst k k.lt_succ_self)
    rw [edges_snoc hheld, ← List.tail_drop]
    exact step_reset_eq_resetOf (s := { State.resetOf s.cfg with inputs := s.inputs.drop k }) hl hlast

/-! ### What a reset edge aborts (R221) -/

/-- A reset edge with EN high is an aborted transfer, with the levels of the cycle before the edge (R52). -/
theorem transferAt_resetArm_of_high {s : State} (hrst : s.sample.rst = true) (hen : s.enQ = true) :
    transferAt s (resetArm s.popInput) = some ⟨s.rsQ, s.dQ, true⟩ :=
  Option.toList_eq_singleton_iff.1 ((transferAt_resetArm hrst).trans (if_pos hen))

/-- Settles O15: the edge runs the RESET arm, which lowers EN; EN was high exactly in EH of a running program. -/
theorem resetAbortsOnlyAnEnableHighTransfer : Obligations.ResetAbortsOnlyAnEnableHighTransfer := by
  unfold Obligations.ResetAbortsOnlyAnEnableHighTransfer
  intro s t hinv hrst h
  rw [step_reset (step_cases h).1 hrst] at h
  cases h
  obtain ⟨-, -, hen, hrs, hd⟩ := resetArm_outputs s.popInput
  exact ⟨fun hp hsub => transferAt_resetArm_of_high hrst (hinv.en_iff.2 ⟨hp, hsub⟩),
    fun hlow => transferAt_of_not_high hinv hlow _, acceptedAt_reset hrst, hen, hrs, hd⟩

/-! ### The timing table (R230) -/

/-- INIT's latency as the table writes it: the twelve NIBs of R167 together. -/
theorem latency_init_table (c : Config) :
    latency c .init =
      c.nPowerup + c.nRst1 + c.nRst2 + c.nRst3 + c.nBus4 + 12 * c.dNib + 4 * c.nCmd + c.nClear + c.nHome := by
  rw [latency_init]
  omega

/-- Settles O10: the formulas, and each of them evaluated at the defaults of R6. -/
theorem latenciesFollowTheTimingTable : Obligations.LatenciesFollowTheTimingTable := by
  unfold Obligations.LatenciesFollowTheTimingTable
  refine ⟨fun c => ⟨rfl, latency_cmd c, latency_char c, latency_clear c, latency_home c, latency_init_table c⟩, ?_⟩
  rw [latency_cmd, latency_char, latency_clear, latency_home, latency_init_table]
  decide

end Sys2Proof.Proofs

/-! What `exec` is (log 6): the edge at which the decoded request is presented (O16). -/

namespace Sys2Proof.Proofs

open Sys2Proof.Machine Sys2Proof.Laws

/-- The ports' two fields and the word they form stand for one request (R70, R71). -/
theorem decode_append (op : BitVec 2) (b : Byte) : decode (op ++ b) = decodeFields op b := by
  rw [decode, opField_append, dataField_append]

/-- Settles O16: the ports ask for the request of their fields, which is the request of their word. -/
theorem stepRunsThePresentedRequest : Obligations.StepRunsThePresentedRequest := by
  unfold Obligations.StepRunsThePresentedRequest
  intro s i hrst hvalid hdecode
  have hrequest : portAction s.sample = .request i := by
    rw [portAction_of_valid hrst hvalid, ← decode_append, hdecode]
  exact step_request hrequest

end Sys2Proof.Proofs
